-- ==== Sys2Proof/Word.lean ====
section
/-! DEFINITION. Word.lean: the four widths of HEXDEC (00_scope.md rule R4: byte, nibble, 64-bit operand, 32-bit
result), all unsigned bit vectors (00_scope.md section 5: "All values are unsigned"). -/

namespace Sys2Proof

/-- One character code: one 8-bit lane of the operand (00_scope.md R4). -/
abbrev Byte := BitVec 8

/-- One hexadecimal digit value (00_scope.md R4: "a 4-bit value"). -/
abbrev Nibble := BitVec 4

/-- The 64-bit word on the port `din`, and the width of every net of the datapath (00_scope.md R4, section 5). -/
abbrev Operand := BitVec 64

/-- The 32-bit unsigned number on the port `dout` (00_scope.md R4; 10_state.md R18). -/
abbrev Result := BitVec 32

end Sys2Proof
end

