-- ==== Sys2Proof/Config.lean ====
section
/-! DEFINITION. Config.lean: the parameters of an instance (00_scope.md rule R5), the values this hardware takes for
them, and the free values. Each is fixed when an instance is built; none is a register (10_state.md R13). -/

namespace Sys2Proof

/-- `LANE_ORDER` (00_scope.md R5, 20_memory.md R32): which bits of `din` hold which character. -/
inductive LaneOrder where
  | le   -- character i is din[8i+7 : 8i]
  | be   -- character i is din[63-8i : 56-8i]
deriving DecidableEq, Repr

/-- The parameter set of 00_scope.md R5. Two instances built with different parameters are two values of this type. -/
structure Params where
  /-- `LANE_ORDER`. -/
  laneOrder : LaneOrder
  /-- `INVALID_OUT`: the value driven for an out-of-contract word, a total function of the word alone (30_encoding.md R59). -/
  invalidOut : Operand → Result
  /-- `T_PD`: the propagation delay, counted in some unit of time that the spec leaves unspecified. -/
  propagationDelay : Nat

/-- FREE VALUE (log entry 2): `INVALID_OUT` of the instance of each lane order. The spec leaves it OPEN (00_scope.md R5,
92_eei_decisions.md D3), so nothing is known of it but that it is a function of the operand word. It takes the lane
order because two instances may have two different functions (40_decode.md R75). -/
opaque Config.invalidOut : LaneOrder → Operand → Result

/-- FREE VALUE (log entry 6): `T_PD`, OPEN in 00_scope.md R5, with no value in any source. DESIGN CHOICE: one number for
each lane order, so that the instances Config and Machine/Datapath.lean name share it where they share the lane order; an
instance of any other `T_PD` is another value of `Params`. -/
opaque Config.propagationDelay : LaneOrder → Nat

/-- FREE VALUE (log entry 3): the word the environment drives on `din` when the block is powered up, "unspecified by
this spec" (10_state.md R21). -/
opaque Config.dinAtPowerUp : Operand

/-- This hardware's `LANE_ORDER` (00_scope.md R5; 92_eei_decisions.md D2; log entry 1). -/
def Config.laneOrder : LaneOrder := .le

/-- The instance built with a given lane order: what the row `DECODE` (LE) or `DECODE_BE` (BE) of the opcode table
runs on (30_encoding.md R57). -/
def Config.instanceOf (o : LaneOrder) : Params where
  laneOrder := o
  invalidOut := Config.invalidOut o
  propagationDelay := Config.propagationDelay o

/-- The parameters of this hardware. -/
def Config.hexdec : Params := Config.instanceOf Config.laneOrder

end Sys2Proof
end

