-- ==== Sys2Proof/Syntax.lean ====
section
/-! DEFINITION. Syntax.lean: the operand as eight characters, and the one inductive of operations, one constructor per
row of spec/opcode_table.json (30_encoding.md rules R50, R51, R57). -/

namespace Sys2Proof

/-- The eight character codes of an operand, `c0` the first character and most significant digit, `c7` the last
(20_memory.md R31). The fields are named as the fields of format W64 (30_encoding.md R51). -/
@[ext] structure Chars where
  c0 : Byte
  c1 : Byte
  c2 : Byte
  c3 : Byte
  c4 : Byte
  c5 : Byte
  c6 : Byte
  c7 : Byte
deriving DecidableEq, Repr

/-- The opcode map (30_encoding.md R57): the one operation DECODE, under the name of the table's row for each lane
order. "They are not two operations of one machine: an instance has one value of LANE_ORDER and therefore exactly one
of the rows". -/
inductive Instr where
  /-- Row `DECODE`: DECODE on an instance built with `LANE_ORDER = LE`, the operand's eight characters given. -/
  | decode (c : Chars)
  /-- Row `DECODE_BE`: the same operation on an instance built with `LANE_ORDER = BE`. -/
  | decodeBe (c : Chars)
deriving DecidableEq, Repr

/-- The lane order of the instances that implement the row. -/
def Instr.laneOrder : Instr → LaneOrder
  | .decode _ => .le
  | .decodeBe _ => .be

/-- The operand's characters. -/
def Instr.chars : Instr → Chars
  | .decode c => c
  | .decodeBe c => c

end Sys2Proof
end

