-- ==== Sys2Proof/WellFormed.lean ====
section
/-! DEFINITION. WellFormed.lean: which operations an instance has. Any eight bytes are an operand: there is no illegal
and no reserved encoding (30_encoding.md rules R57, R58), so the one check is that the row is the instance's own. -/

namespace Sys2Proof

/-- `i` is an operation of an instance built with lane order `o` (30_encoding.md R57: "an instance has one value of
LANE_ORDER and therefore exactly one of the rows"). -/
def Instr.wf (o : LaneOrder) (i : Instr) : Bool := decide (i.laneOrder = o)

end Sys2Proof
end

