-- ==== Sys2Proof/Decode.lean ====
section
/-! DEFINITION. Decode.lean: cutting `din` into lanes and lanes into characters (20_memory.md rule R32, 30_encoding.md
rule R51), the decoder, `pack` (42_boundary_and_absent_classes.md rule R120) and the encoder. The decoder is total: every
64-bit word selects DECODE (30_encoding.md R57). A byte list of another length is rejected by name. -/

namespace Sys2Proof

/-! ## The eight characters by index -/

/-- `c[i]`, the character at position `i` of the string (00_scope.md section 5). -/
def Chars.get (c : Chars) (i : Fin 8) : Byte :=
  match i with
  | 0 => c.c0
  | 1 => c.c1
  | 2 => c.c2
  | 3 => c.c3
  | 4 => c.c4
  | 5 => c.c5
  | 6 => c.c6
  | 7 => c.c7

/-- The string whose character `i` is `f i`. -/
def Chars.ofFn (f : Fin 8 → Byte) : Chars := ⟨f 0, f 1, f 2, f 3, f 4, f 5, f 6, f 7⟩

/-- The string with character `i` replaced by `b`. -/
def Chars.set (c : Chars) (i : Fin 8) (b : Byte) : Chars := Chars.ofFn fun j => if j = i then b else c.get j

/-- The characters, leftmost first (00_scope.md section 5). -/
def Chars.toList (c : Chars) : List Byte := [c.c0, c.c1, c.c2, c.c3, c.c4, c.c5, c.c6, c.c7]

/-- The string read backwards, `c[7] c[6] ... c[0]` (20_memory.md R34). -/
def Chars.reverse (c : Chars) : Chars := ⟨c.c7, c.c6, c.c5, c.c4, c.c3, c.c2, c.c1, c.c0⟩

/-! ## Lanes -/

/-- Lane `L` of a 64-bit value: bits `[8L+7 : 8L]`, never reversed (20_memory.md R32, 41_datapath.md R105). -/
def lane (v : Operand) (L : Nat) : Byte := v.extractLsb' (8 * L) 8

/-- The lane that holds character `i` (20_memory.md R32: "`L` = `i` (LE) or `7-i` (BE)"). -/
def laneOf (o : LaneOrder) (i : Fin 8) : Nat :=
  match o with
  | .le => i.val
  | .be => 7 - i.val

/-- The characters of `din` under a lane order (30_encoding.md R51). -/
def charsOf (o : LaneOrder) (din : Operand) : Chars := Chars.ofFn fun i => lane din (laneOf o i)

/-! ## The decoder -/

/-- The operation a word on `din` selects (30_encoding.md R57: "a decoder written from `opcode_table.json` returns
DECODE for any word"). -/
def decodeWord (o : LaneOrder) (din : Operand) : Instr :=
  match o with
  | .le => .decode (charsOf .le din)
  | .be => .decodeBe (charsOf .be din)

/-- `pack`: from eight bytes to the operand word (42_boundary_and_absent_classes.md R120). -/
def pack (o : LaneOrder) (c : Chars) : Operand :=
  match o with
  | .le => c.c0.setWidth 64 ||| c.c1.setWidth 64 <<< 8 ||| c.c2.setWidth 64 <<< 16 ||| c.c3.setWidth 64 <<< 24
      ||| c.c4.setWidth 64 <<< 32 ||| c.c5.setWidth 64 <<< 40 ||| c.c6.setWidth 64 <<< 48 ||| c.c7.setWidth 64 <<< 56
  | .be => c.c7.setWidth 64 ||| c.c6.setWidth 64 <<< 8 ||| c.c5.setWidth 64 <<< 16 ||| c.c4.setWidth 64 <<< 24
      ||| c.c3.setWidth 64 <<< 32 ||| c.c2.setWidth 64 <<< 40 ||| c.c1.setWidth 64 <<< 48 ||| c.c0.setWidth 64 <<< 56

/-- Why a list of bytes is no operand. "The operand is exactly 8 bytes; shorter and longer strings are not
representable on the port" (20_memory.md R36, 30_encoding.md R50). Raised by `decodeBytes` only; safe. -/
inductive DecodeReject where
  /-- Fewer than eight bytes. -/
  | operandTooShort
  /-- More than eight bytes. -/
  | operandTooLong
deriving DecidableEq, Repr

/-- The decoder on bytes, lane 0 (bits 7..0 of `din`) first: eight bytes are an operand, another number is rejected by
name. -/
def decodeBytes (o : LaneOrder) (bs : List Byte) : Except DecodeReject Instr :=
  match bs with
  | [b0, b1, b2, b3, b4, b5, b6, b7] => .ok (decodeWord o (pack .le ⟨b0, b1, b2, b3, b4, b5, b6, b7⟩))
  | bs => if bs.length < 8 then .error .operandTooShort else .error .operandTooLong

/-- The bytes of a word, lane 0 first. -/
def lanesOf (v : Operand) : List Byte :=
  [lane v 0, lane v 1, lane v 2, lane v 3, lane v 4, lane v 5, lane v 6, lane v 7]

/-- The 64-bit word whose low `nbits` bits are those of `w` and whose other bits are 0. -/
def tableWord (nbits w : Nat) : Operand := BitVec.ofNat 64 (w % 2 ^ nbits)

/-- What this hardware's decoder (`LANE_ORDER = LE`) reads from an instruction whose bits are `w`. A row of more than 64
bits is no word of the port (30_encoding.md R50: "there is no other length"). -/
def decodeTableWord (nbits w : Nat) : Option Instr :=
  if nbits ≤ 64 then (decodeBytes Config.laneOrder (lanesOf (tableWord nbits w))).toOption else none

/-! ## The encoder -/

/-- The word of an operation: its characters at the positions of its row (30_encoding.md R51, R61: "`DECODE "s"`
assembles to the W64 word `pack(s)` under the instance's `LANE_ORDER`"). -/
def encode (i : Instr) : Operand := pack i.laneOrder i.chars

end Sys2Proof
end

