-- ==== Sys2Proof/Machine/Operands.lean ====
section
/-! DEFINITION. Machine/Operands.lean: the one operand form (a 64-bit word of eight character codes): which codes are in
contract, the value of a digit, and the operation DECODE(din) at the contract level (30_encoding.md rules R52 to R56,
40_decode.md rule R70). There is no other operand form: no register, memory or immediate operand. -/

namespace Sys2Proof.Machine

/-- `Valid(c)` (30_encoding.md R53): `c` is one of the 22 hex digit codes. -/
def valid (c : Byte) : Bool :=
  (decide (0x30#8 ≤ c) && decide (c ≤ 0x39#8)) || (decide (0x41#8 ≤ c) && decide (c ≤ 0x46#8))
    || (decide (0x61#8 ≤ c) && decide (c ≤ 0x66#8))

/-- `val(c) = c[3:0] + 9 * c[6]` (30_encoding.md R55), in 4 bits and with no case split on the code
(42_boundary_and_absent_classes.md R123: the `ValidWord` split of `decodeOp` is the only one). It "is defined only where
`Valid` holds": `decodeOp` reads it nowhere else (log entry 11). -/
def digitValue (c : Byte) : Nibble := c.extractLsb' 0 4 + 9#4 * (c.extractLsb' 6 1).setWidth 4

/-- All eight characters are hex digit codes (30_encoding.md R56). -/
def validChars (c : Chars) : Bool := c.toList.all valid

/-- `ValidWord(din)` (30_encoding.md R56), under the lane order that cuts `din` into characters. -/
def validWord (o : LaneOrder) (din : Operand) : Bool := validChars (charsOf o din)

/-- `{n[0], ..., n[7]}`: eight nibbles, `n[0]` most significant (40_decode.md R70, 20_memory.md R31). -/
def joinNibbles (n0 n1 n2 n3 n4 n5 n6 n7 : Nibble) : Result := n0 ++ n1 ++ n2 ++ n3 ++ n4 ++ n5 ++ n6 ++ n7

/-- The in-contract result of DECODE on a string of hex digits (40_decode.md R70). -/
def numeral (c : Chars) : Result :=
  joinNibbles (digitValue c.c0) (digitValue c.c1) (digitValue c.c2) (digitValue c.c3)
    (digitValue c.c4) (digitValue c.c5) (digitValue c.c6) (digitValue c.c7)

/-- Nibble `i` of a result, counted from the most significant: `dout[31-4i : 28-4i]` (10_state.md R18). -/
def nibble (v : Result) (i : Fin 8) : Nibble := v.extractLsb' (28 - 4 * i.val) 4

/-- DECODE(din) (40_decode.md R70): the value `dout` takes on an instance with parameters `p`. The case split is the
specification's, "not a branch of the hardware". -/
def decodeOp (p : Params) (din : Operand) : Result :=
  if validWord p.laneOrder din then numeral (charsOf p.laneOrder din) else p.invalidOut din

end Sys2Proof.Machine
end

