-- ==== Sys2Proof/Machine/State.lean ====
section
/-! DEFINITION. Machine/State.lean: the state, the ways a step can stop, and the state after reset. HEXDEC has no
architectural state (10_state.md rules R10 to R16); what a step relates is the words on its two ports (R17, R18). -/

namespace Sys2Proof.Machine

/-- What the block itself carries from one evaluation to the next: nothing. "The state type is the one-element type"
(10_state.md R20). It has no field: no register, flag, mode, memory, cache or latch (R10 to R16). -/
structure Block where
deriving DecidableEq, Repr

/-- The words on the two ports, and the block's empty state. The ports are the whole external surface (10_state.md R17,
R18, R19). `din` is the environment's to change and `dout` the block's; `dout` is a wire's word, which no operation reads
(10_state.md R16: no result cache, no last-input latch). -/
structure State where
  /-- The block's own state, the one-element type (10_state.md R20). -/
  block : Block
  /-- The port `din[63:0]`, driven by the environment (10_state.md R17). -/
  din : Operand
  /-- The port `dout[31:0]`, driven by the block (10_state.md R18). -/
  dout : Result
deriving DecidableEq, Repr

/-- The reasons the machine stops with a fault: none. "The complete list of exception causes is therefore empty"
(60_exceptions.md R130). -/
inductive Fault where
deriving DecidableEq, Repr

/-- The reasons something is given no meaning. `exec` and `step` raise none of them. -/
inductive Refusal where
  /-- An operation of the opcode table with no meaning yet. Raised by an arm of `exec` only; no arm raises it; safe. -/
  | notModelled (mnemonic : String)
  /-- The caller took `dout` before `T_PD` had elapsed since the last change of `din` (70_reset_and_hazards.md R155,
  93_implementation_defined.md U6: refuse). Raised by `takeResult` only, of a caller's misuse; safe. -/
  | takenBeforeSettled
  /-- The caller changed `din` before it took `dout` (70_reset_and_hazards.md R154, 93_implementation_defined.md U6:
  refuse). Raised by `takeResult` only, of a caller's misuse; safe. -/
  | inputNotHeld
deriving DecidableEq, Repr

/-- The machine at power-up: there is no reset input (70_reset_and_hazards.md R150) and no state to reset (10_state.md
R21). `din` is whatever the environment drives, a free value (log entry 3), and `dout` is "`DECODE(din)` for the present
`din`" (R21). -/
def State.reset : State where
  block := {}
  din := Config.dinAtPowerUp
  dout := decodeOp Config.hexdec Config.dinAtPowerUp

end Sys2Proof.Machine
end

