-- ==== Sys2Proof/Machine/Ops.lean ====
section
/-! DEFINITION. Machine/Ops.lean: the named operations over the ports. There is no register and no memory to read or
write (10_state.md rules R10, R15; 20_memory.md R30) and no exception to take or return from (60_exceptions.md rules R130,
R133, R134), so these are all. -/

namespace Sys2Proof.Machine

/-- The block reads its input port (00_scope.md section 5: `din`). -/
def State.readDin (s : State) : Operand := s.din

/-- `dout <- v` (00_scope.md section 5): the block drives its output port. -/
def State.drive (s : State) (v : Result) : State := { s with dout := v }

/-- The environment drives `din` with `w` (10_state.md R20); the block does nothing. -/
def State.present (s : State) (w : Operand) : State := { s with din := w }

/-- One evaluation of an instance with parameters `p` at the contract level: `dout <- DECODE(din)` (10_state.md R18,
R20; 40_decode.md R70). -/
def State.evaluate (p : Params) (s : State) : State := s.drive (decodeOp p s.readDin)

end Sys2Proof.Machine
end

