-- ==== Sys2Proof/Machine/Conversion.lean ====
section
/-! DEFINITION. Machine/Conversion.lean: the meaning of each row of the opcode table. Both rows name 40_decode.md rule
R70; each has a definition of its own over the shared `decodeOp`. -/

namespace Sys2Proof.Machine

/-- Row `DECODE`: on an instance with `LANE_ORDER = LE`, `dout` takes the value DECODE gives for the operand word. No
flag, no exception, no other state (40_decode.md R70, R76). -/
def execDecode (c : Chars) (s : State) : Host.Outcome State Fault Refusal :=
  .next (s.drive (decodeOp (Config.instanceOf .le) (pack .le c)))

/-- Row `DECODE_BE`: the same on an instance with `LANE_ORDER = BE`. -/
def execDecodeBe (c : Chars) (s : State) : Host.Outcome State Fault Refusal :=
  .next (s.drive (decodeOp (Config.instanceOf .be) (pack .be c)))

end Sys2Proof.Machine
end

