-- ==== Sys2Proof/Machine/Dispatch.lean ====
section
/-! DEFINITION. Machine/Dispatch.lean: one arm per row of the opcode table. -/

namespace Sys2Proof.Machine

def exec (i : Instr) (s : State) : Host.Outcome State Fault Refusal :=
  match i with
  | .decode c => Sys2Proof.Machine.execDecode c s
  | .decodeBe c => Sys2Proof.Machine.execDecodeBe c s

end Sys2Proof.Machine
end

