-- ==== Sys2Proof/Machine/Instance.lean ====
section
/-! DEFINITION. Machine/Instance.lean: one evaluation of an instance of either lane order, and how a word comes to stand
where the next evaluation reads it. -/

namespace Sys2Proof.Machine

/-- One evaluation of the instance built with lane order `o`: what the word on `din` selects is done (10_state.md R20,
30_encoding.md R57). There is no instruction fetch and no program counter (10_state.md R11): the word is on the port. -/
def stepOn (o : LaneOrder) (s : State) : Host.Outcome State Fault Refusal := exec (decodeWord o s.readDin) s

/-- The environment drives `din` with the operand word whose low `nbits` bits are those of `w` (log entry 5). -/
def placeWord (s : State) (nbits w : Nat) : State := s.present (tableWord nbits w)

end Sys2Proof.Machine
end

