-- ==== Sys2Proof/Machine/Step.lean ====
section
/-! DEFINITION. Machine/Step.lean: the step of this hardware, one evaluation on a stable `din` (10_state.md rule R20). -/

namespace Sys2Proof.Machine

/-- One step is one evaluation by this hardware's instance. It "always exists and always completes" (10_state.md R20). -/
def step (s : State) : Host.Outcome State Fault Refusal := stepOn Config.laneOrder s

/-- `s` with an operand word on `din`, so that the next step evaluates it (log entry 5). -/
def State.withFetchWord (s : State) (nbits w : Nat) : State := placeWord s nbits w

end Sys2Proof.Machine
end

