-- ==== Sys2Proof/Machine/Flags.lean ====
section
/-! DEFINITION. Machine/Flags.lean: HEXDEC has no flags (10_state.md rule R12). The only carries are internal nets of the
reference datapath's addition (41_datapath.md rule R101); this file gives their lane view. -/

namespace Sys2Proof.Machine

/-- `cin[L]`: the carry into lane `L` of the 64-bit sum of `a` and `b`, 0 or 1 (41_datapath.md R101). -/
def laneCarryIn (a b : Operand) : Nat → Nat
  | 0 => 0
  | L + 1 => ((lane a L).toNat + (lane b L).toNat + laneCarryIn a b L) / 256

/-- `s[L]`: the 9-bit sum of lane `L` with the carry into it (41_datapath.md R101). -/
def laneSum (a b : Operand) (L : Nat) : Nat := (lane a L).toNat + (lane b L).toNat + laneCarryIn a b L

/-- The correction a code takes: 9 times its letter bit `c[6]` (41_datapath.md R109, 30_encoding.md R52). -/
def correctionOf (c : Byte) : Nat := 9 * (c.getLsbD 6).toNat

/-- `cin[L]` of 41_datapath.md R109, from the codes alone. -/
def codeCarryIn (din : Operand) : Nat → Nat
  | 0 => 0
  | L + 1 => if (lane din L).toNat + correctionOf (lane din L) + codeCarryIn din L ≥ 256 then 1 else 0

/-- `s[L]` of 41_datapath.md R109: `c_L + 9 * c_L[6] + cin[L]`. -/
def codeSum (din : Operand) (L : Nat) : Nat := (lane din L).toNat + correctionOf (lane din L) + codeCarryIn din L

/-- `g(c)`, the lane-wise function of 41_datapath.md R109, as the per-lane converter of R110:
`(c[3:0] + {c[6], 0, 0, c[6]}) mod 16`, an adder with no case split (the by-bit form of 40_decode.md R71). -/
def laneDigit (c : Byte) : Nibble := c.extractLsb' 0 4 + (c.extractLsb' 6 1 ++ 0#2 ++ c.extractLsb' 6 1)

end Sys2Proof.Machine
end

