-- ==== Sys2Proof/Machine/Datapath.lean ====
section
/-! DEFINITION. Machine/Datapath.lean: the reference word-parallel datapath (41_datapath.md rules R90 to R104), its
out-of-contract instance (R108, R109) and the equivalent circuits of R110. A reference, not a requirement: the contract
of Machine/Operands.lean is what binds every implementation (00_scope.md R6), and no meaning of an operation reads it. -/

namespace Sys2Proof.Machine

/-! ## The constants (41_datapath.md R103) -/

/-- Bit 6 of every lane. -/
def mLetter : Operand := 0x4040404040404040#64
/-- The low nibble of every lane. -/
def mNib : Operand := 0x0F0F0F0F0F0F0F0F#64
/-- The low byte of every 16-bit group. -/
def mByte : Operand := 0x00FF00FF00FF00FF#64
/-- The low half-word of every 32-bit group. -/
def mHalf : Operand := 0x0000FFFF0000FFFF#64
/-- The low 32 bits. -/
def mWord : Operand := 0x00000000FFFFFFFF#64
/-- Lane bit 6 to lane bit 0, value 1. -/
def sOne : Nat := 6
/-- Lane bit 6 to lane bit 3, value 8. -/
def sEight : Nat := 3

/-! ## The nets, in the order they are computed -/

/-- The letter bits (41_datapath.md R91). -/
def letterBits (v0 : Operand) : Operand := v0 &&& mLetter

/-- The correction word, `0x09` in every letter lane (41_datapath.md R92). -/
def correctionWord (b : Operand) : Operand := (b >>> sOne) ||| (b >>> sEight)

/-- The corrected word, modulo 2^64 (41_datapath.md R93). -/
def correctedWord (v0 k : Operand) : Operand := v0 + k

/-- One nibble per lane (41_datapath.md R94). -/
def nibbleLanes (v1 : Operand) : Operand := v1 &&& mNib

/-- Nibble pairs to bytes (41_datapath.md R95 for LE, R96 for BE). -/
def packBytes (o : LaneOrder) (v2 : Operand) : Operand :=
  match o with
  | .le => ((v2 <<< 4) ||| (v2 >>> 8)) &&& mByte
  | .be => (v2 ||| (v2 >>> 4)) &&& mByte

/-- Byte pairs to half-words (41_datapath.md R95, R96). -/
def packHalves (o : LaneOrder) (w : Operand) : Operand :=
  match o with
  | .le => ((w <<< 8) ||| (w >>> 16)) &&& mHalf
  | .be => (w ||| (w >>> 8)) &&& mHalf

/-- Half-words to the 32-bit result (41_datapath.md R95, R96). -/
def packResult (o : LaneOrder) (x : Operand) : Operand :=
  match o with
  | .le => ((x <<< 16) ||| (x >>> 32)) &&& mWord
  | .be => (x ||| (x >>> 16)) &&& mWord

/-- The values of the datapath's nets, each a function of the present `din` alone (10_state.md R16). -/
structure Nets where
  v0 : Operand
  b : Operand
  k : Operand
  v1 : Operand
  v2 : Operand
  w : Operand
  x : Operand
  r : Operand
deriving DecidableEq, Repr

/-- Every net for a word on `din` (41_datapath.md R95, R96). -/
def nets (o : LaneOrder) (din : Operand) : Nets :=
  let v0 := din
  let b := letterBits v0
  let k := correctionWord b
  let v1 := correctedWord v0 k
  let v2 := nibbleLanes v1
  let w := packBytes o v2
  let x := packHalves o w
  let r := packResult o x
  { v0 := v0, b := b, k := k, v1 := v1, v2 := v2, w := w, x := x, r := r }

/-- `DP(din)`: `DP_LE` on an LE instance, `DP_BE` on a BE instance; `r[31:0]` (41_datapath.md R95, R96, R104). -/
def dp (o : LaneOrder) (din : Operand) : Result := (nets o din).r.extractLsb' 0 32

/-- The reference instance: `INVALID_OUT_REF = DP` (41_datapath.md R108). "A claim that uses it is a claim about the
reference datapath, not about HEXDEC in general."

DESIGN CHOICE (log entry 6): its `T_PD` is that of `Config.instanceOf o`. The spec makes `T_PD` one number per instance
(70_reset_and_hazards.md R159) and leaves open whether two instances of one lane order share it. No result reads it. -/
def referenceInstance (o : LaneOrder) : Params where
  laneOrder := o
  invalidOut := dp o
  propagationDelay := Config.propagationDelay o

/-- What 41_datapath.md R109 says `DP` returns: from the lane of each character, `s[L][3:0]`. -/
def dpByLanes (o : LaneOrder) (din : Operand) : Result :=
  let n (i : Fin 8) : Nibble := BitVec.ofNat 4 (codeSum din (laneOf o i))
  joinNibbles (n 0) (n 1) (n 2) (n 3) (n 4) (n 5) (n 6) (n 7)

/-! ## Equivalent circuits (41_datapath.md R110) -/

/-- Eight independent per-lane converters wired straight to `dout`. -/
def perLaneConverters (o : LaneOrder) (din : Operand) : Result :=
  let c := charsOf o din
  joinNibbles (laneDigit c.c0) (laneDigit c.c1) (laneDigit c.c2) (laneDigit c.c3)
    (laneDigit c.c4) (laneDigit c.c5) (laneDigit c.c6) (laneDigit c.c7)

/-- Mask first: `v2 = (v0 & M_NIB) + k`, and a second `& M_NIB` since a lane may exceed 15. -/
def maskFirst (o : LaneOrder) (din : Operand) : Result :=
  let v2 := nibbleLanes ((din &&& mNib) + correctionWord (letterBits din))
  (packResult o (packHalves o (packBytes o v2))).extractLsb' 0 32

/-- The correction word as a product, `(b >> 6) * 9`. -/
def correctionByProduct (b : Operand) : Operand := (b >>> sOne) * 9#64

/-- The correction word as a sum, `(b >> 6) + (b >> 3)`. -/
def correctionBySum (b : Operand) : Operand := (b >>> sOne) + (b >>> sEight)

end Sys2Proof.Machine
end

