-- ==== Sys2Proof/Machine/Circuit.lean ====
section
/-! DEFINITION. Machine/Circuit.lean: the reference datapath as a straight-line list of gates (95_test_vectors.md program
P6; 41_datapath.md rules R100, R102). A gate reads nets by their number: there is no branch, loop, table or multiplexer
to write (42_boundary_and_absent_classes.md R123), so every operand exercises the same gates
(70_reset_and_hazards.md R159), and they can be counted (R160). -/

namespace Sys2Proof.Machine

/-- The operations the datapath uses, and no other (41_datapath.md R100). A net number counts from 0, which is `din`. -/
inductive Gate where
  /-- Bitwise AND with a constant. -/
  | andConst (a : Nat) (m : Operand)
  /-- Bitwise OR of two nets. -/
  | orNets (a b : Nat)
  /-- Logical shift left by a constant. -/
  | shiftLeft (a : Nat) (n : Nat)
  /-- Logical shift right by a constant. -/
  | shiftRight (a : Nat) (n : Nat)
  /-- The 64-bit addition. -/
  | addNets (a b : Nat)
deriving DecidableEq, Repr

/-- The value of net `a`. A circuit's gates read only nets before them. -/
def netAt (ns : List Operand) (a : Nat) : Operand := ns.getD a 0#64

/-- What a gate drives, given the nets before it. -/
def Gate.drives (ns : List Operand) : Gate → Operand
  | .andConst a m => netAt ns a &&& m
  | .orNets a b => netAt ns a ||| netAt ns b
  | .shiftLeft a n => netAt ns a <<< n
  | .shiftRight a n => netAt ns a >>> n
  | .addNets a b => netAt ns a + netAt ns b

/-- All nets of a circuit, in order, from the nets already there. -/
def runGates (ns : List Operand) : List Gate → List Operand
  | [] => ns
  | g :: gs => runGates (ns ++ [g.drives ns]) gs

/-- Lines 1 to 6 of program P6: the nibble conversion, the same for both lane orders (41_datapath.md R91 to R94). -/
def conversionGates : List Gate :=
  [.andConst 0 mLetter, .shiftRight 1 sOne, .shiftRight 1 sEight, .orNets 2 3, .addNets 0 4, .andConst 5 mNib]

/-- The packing (41_datapath.md R95: lines 7 to 18 of program P6; R96). -/
def packingGates : LaneOrder → List Gate
  | .le =>
    [.shiftLeft 6 4, .shiftRight 6 8, .orNets 7 8, .andConst 9 mByte,
     .shiftLeft 10 8, .shiftRight 10 16, .orNets 11 12, .andConst 13 mHalf,
     .shiftLeft 14 16, .shiftRight 14 32, .orNets 15 16, .andConst 17 mWord]
  | .be =>
    [.shiftRight 6 4, .orNets 6 7, .andConst 8 mByte,
     .shiftRight 9 8, .orNets 9 10, .andConst 11 mHalf,
     .shiftRight 12 16, .orNets 12 13, .andConst 14 mWord]

/-- The reference circuit of an instance. -/
def circuit (o : LaneOrder) : List Gate := conversionGates ++ packingGates o

/-- The result of the circuit: the low 32 bits of its last net (41_datapath.md R104). -/
def circuitOut (o : LaneOrder) (din : Operand) : Result :=
  ((runGates [din] (circuit o)).getLastD 0#64).extractLsb' 0 32

/-- The kinds of gate that 70_reset_and_hazards.md R160 counts. -/
inductive GateKind where
  | andKind | orKind | leftKind | rightKind | addKind
deriving DecidableEq, Repr

def Gate.kind : Gate → GateKind
  | .andConst _ _ => .andKind
  | .orNets _ _ => .orKind
  | .shiftLeft _ _ => .leftKind
  | .shiftRight _ _ => .rightKind
  | .addNets _ _ => .addKind

/-- How many gates of a kind a circuit has (70_reset_and_hazards.md R160). -/
def countKind (q : GateKind) (gs : List Gate) : Nat := gs.countP fun g => decide (g.kind = q)

/-- The distances of a circuit's shifts (41_datapath.md R102). -/
def shiftDistances (gs : List Gate) : List Nat :=
  gs.filterMap fun g =>
    match g with
    | .shiftLeft _ n => some n
    | .shiftRight _ n => some n
    | .andConst _ _ => none
    | .orNets _ _ => none
    | .addNets _ _ => none

end Sys2Proof.Machine
end

