-- ==== Sys2Proof/Machine/System.lean ====
section
/-! DEFINITION. Machine/System.lean: several instances side by side (20_memory.md rules R39, R40; 60_exceptions.md R139).
They share nothing, have no identifier of their own and no arbiter; a number here is only the place in the list. -/

namespace Sys2Proof.Machine

/-- Instances, each with its own parameters (which may differ in lane order and in `INVALID_OUT`) and its own ports. -/
abbrev System := List (Params × State)

/-- One evaluation on the instance at place `k`: its caller presents `w` and the instance drives its `dout`. -/
def evaluateAt (k : Nat) (w : Operand) (sys : System) : System :=
  sys.modify k fun q => (q.1, (q.2.present w).evaluate q.1)

/-- A schedule of evaluations: which instance is given which word, in the order in which they complete. -/
def evaluateAll (sys : System) (sched : List (Nat × Operand)) : System :=
  sched.foldl (fun y e => evaluateAt e.1 e.2 y) sys

end Sys2Proof.Machine
end

