-- ==== Sys2Proof/Machine/Caller.lean ====
section
/-! DEFINITION. Machine/Caller.lean: the environment's side of the boundary: the caller's duties in time
(42_boundary_and_absent_classes.md rule R121, 70_reset_and_hazards.md rules R154, R155), runs of several evaluations
(10_state.md R20, 20_memory.md R39), and the helper functions of the source's test properties (30_encoding.md R63,
40_decode.md R77). None of it is part of the block. -/

namespace Sys2Proof.Machine

/-! ## One use of the block in time -/

/-- How the caller uses the block once. Times are counted from the last change of any bit of `din`, in the unit of
`T_PD`. -/
structure Use where
  /-- The word the caller drives on `din`. -/
  operand : Operand
  /-- How long all 64 bits are held unchanged. -/
  heldFor : Nat
  /-- When `dout` is taken. -/
  takenAt : Nat
deriving DecidableEq, Repr

/-- The caller's duties of stability and settling (42_boundary_and_absent_classes.md R121): `dout` is not used before
`T_PD` has elapsed (70_reset_and_hazards.md R155), and `din` is held until `dout` has been taken (R154). -/
def Use.dutiful (tPd : Nat) (u : Use) : Bool := decide (tPd ≤ u.takenAt) && decide (u.takenAt ≤ u.heldFor)

/-- One use of the block by a caller. A use that breaks a duty of time is given no meaning: refused by name
(93_implementation_defined.md U6), not a fault, since "the hardware signals nothing". -/
def takeResult (tPd : Nat) (u : Use) (s : State) : Host.Outcome State Fault Refusal :=
  if u.takenAt < tPd then .refused .takenBeforeSettled
  else if u.heldFor < u.takenAt then .refused .inputNotHeld
  else step (s.present u.operand)

/-! ## Runs of several evaluations -/

/-- The operands presented one after another, each evaluated by a step: the results in order, and the state after the last
(10_state.md R20: "a list of operands and the list of their results"). A fault or a refusal would end the run. -/
def runOperands (s : State) : List Operand → List Result × State
  | [] => ([], s)
  | w :: ws =>
    match step (s.present w) with
    | .next t =>
      let rest := runOperands t ws
      (t.dout :: rest.1, rest.2)
    | .fault _ => ([], s)
    | .refused _ => ([], s)

/-! ## The caller's memory (95_test_vectors.md program P3) -/

/-- `MemRead(A, 8)` of a software caller whose processor has the byte order `o`: the operand word of the eight bytes at
`A .. A+7`, character `i` at `A + i` (42_boundary_and_absent_classes.md R120). The memory is the caller's. -/
def callerLoad (o : LaneOrder) (mem : Nat → Byte) (A : Nat) : Operand := pack o (Chars.ofFn fun i => mem (A + i.val))

/-! ## Helpers of the test properties (30_encoding.md R63) -/

/-- The digit character of a nibble, '0'..'9' and 'a'..'f'. -/
def digitLower (n : Nibble) : Byte :=
  if n < 10#4 then 0x30#8 + n.setWidth 8 else 0x61#8 + (n.setWidth 8 - 10#8)

/-- The digit character of a nibble, '0'..'9' and 'A'..'F'. -/
def digitUpper (n : Nibble) : Byte :=
  if n < 10#4 then 0x30#8 + n.setWidth 8 else 0x41#8 + (n.setWidth 8 - 10#8)

/-- `toHex_lower(n)`: eight characters, character `i` the digit of `n[31-4i : 28-4i]`. -/
def toHexLower (n : Result) : Chars := Chars.ofFn fun i => digitLower (nibble n i)

/-- `toHex_upper(n)`. -/
def toHexUpper (n : Result) : Chars := Chars.ofFn fun i => digitUpper (nibble n i)

/-- A character in 'a'..'f' replaced by the one in 'A'..'F' (code minus 0x20), another unchanged. DESIGN CHOICE (log entry
14): R63 says so of the other in-contract characters only; that an out-of-contract byte is left unchanged too is the
model's. -/
def upperByte (c : Byte) : Byte := if 0x61#8 ≤ c ∧ c ≤ 0x66#8 then c - 0x20#8 else c

/-- A character in 'A'..'F' replaced by the one in 'a'..'f' (code plus 0x20), another unchanged. -/
def lowerByte (c : Byte) : Byte := if 0x41#8 ≤ c ∧ c ≤ 0x46#8 then c + 0x20#8 else c

/-- `toUpper(s)` (out-of-contract characters: log entry 14). -/
def toUpper (c : Chars) : Chars := Chars.ofFn fun i => upperByte (c.get i)

/-- `toLower(s)`. -/
def toLower (c : Chars) : Chars := Chars.ofFn fun i => lowerByte (c.get i)

/-- The string with the characters of a subset put in upper case and the others in lower case (40_decode.md R73: "changing
the case of any subset of the letters"). -/
def withCase (upper : Fin 8 → Bool) (c : Chars) : Chars :=
  Chars.ofFn fun i => if upper i then upperByte (c.get i) else lowerByte (c.get i)

/-! ## A reference parser (40_decode.md R77) -/

/-- The digits of base 16 in order, in lower case. -/
def hexDigits : List Byte :=
  [0x30, 0x31, 0x32, 0x33, 0x34, 0x35, 0x36, 0x37, 0x38, 0x39, 0x61, 0x62, 0x63, 0x64, 0x65, 0x66]

/-- A general-purpose parser of unsigned base-16 numerals of any length: each digit is looked up in the table of digits,
and the number so far is multiplied by 16. It answers none when some character is no hex digit. The source names no
parser (91_not_in_source.md N12); this one is the model's (log entry 8). -/
def hexParseFrom (acc : Nat) : List Byte → Option Nat
  | [] => some acc
  | c :: cs =>
    match hexDigits.idxOf? (lowerByte c) with
    | some d => hexParseFrom (16 * acc + d) cs
    | none => none

def hexParse (s : List Byte) : Option Nat := hexParseFrom 0 s

/-- A shorter string padded on the left with '0' to eight characters, as a caller must (20_memory.md R36). Longer strings
have no operand. -/
def padLeft (s : List Byte) : Option Chars :=
  match List.replicate (8 - s.length) 0x30#8 ++ s with
  | [b0, b1, b2, b3, b4, b5, b6, b7] => some ⟨b0, b1, b2, b3, b4, b5, b6, b7⟩
  | _ => none

end Sys2Proof.Machine
end

