-- ==== Sys2Proof/Safety.lean ====
section
/-! DEFINITION. Safety.lean: what claims call a good state and a good use. The block itself cannot fail (60_exceptions.md
rule R130); what can go wrong is the caller's (42_boundary_and_absent_classes.md R121). -/

namespace Sys2Proof

open Machine

/-- The output port of an instance with parameters `p` shows DECODE of the present `din` (10_state.md R18;
70_reset_and_hazards.md R150). -/
abbrev Settled (p : Params) (s : State) : Prop := s.dout = decodeOp p s.din

/-- The operand is in contract for an instance of lane order `o` (00_scope.md section 6). -/
abbrev InContract (o : LaneOrder) (din : Operand) : Prop := validWord o din = true

/-- A use that meets every duty of the caller's that R121 names for one evaluation: the operand's content, stability and
settling. Length and lane order are in how the operand is laid out (`pack`). -/
abbrev GoodUse (p : Params) (u : Use) : Prop := u.dutiful p.propagationDelay = true ∧ InContract p.laneOrder u.operand

end Sys2Proof
end

