-- ==== Sys2Proof/Certificates/Slice0/Obligations.lean ====
section
/-! DEFINITION. Obligations.lean: the statements for the provers, by the rules of spec/ they come from. A statement about
an instance holds for every parameter set `p` (every `LANE_ORDER`, every `INVALID_OUT`, every `T_PD`) unless it names one;
no statement rests on a value of a free constant of Config. -/

open Sys2Proof Sys2Proof.Machine

/-! ## Encoding -/

/-- 30_encoding.md R51 and spec/opcode_table.json: words written out from the field table (the strings "deadbeef" and
"0000002a"; a word with out-of-contract bytes) are read as the operation they stand for, on either lane order. Field
positions are the spec's own decision (92_eei_decisions.md D2). -/
def Obligations.WrittenWordsDecode : Prop :=
  decodeTableWord 64 0x6665656264616564 = some (.decode ⟨0x64, 0x65, 0x61, 0x64, 0x62, 0x65, 0x65, 0x66⟩) ∧
  decodeTableWord 64 0x6132303030303030 = some (.decode ⟨0x30, 0x30, 0x30, 0x30, 0x30, 0x30, 0x32, 0x61⟩) ∧
  decodeTableWord 64 0x303030303030FF30 = some (.decode ⟨0x30, 0xFF, 0x30, 0x30, 0x30, 0x30, 0x30, 0x30⟩) ∧
  decodeWord .be 0x6465616462656566 = .decodeBe ⟨0x64, 0x65, 0x61, 0x64, 0x62, 0x65, 0x65, 0x66⟩ ∧
  decodeWord .be 0x3030303030303261 = .decodeBe ⟨0x30, 0x30, 0x30, 0x30, 0x30, 0x30, 0x32, 0x61⟩

/-- 42_boundary_and_absent_classes.md R120 ("`pack` is the inverse of the field extraction of 30_encoding.md rule R51"):
every operation of an instance, with every value of its eight characters, is read back from its word, and from the bytes
of that word. `pack` and the field positions are the spec's own decision (92_eei_decisions.md D2). -/
def Obligations.DecodeOfEncodeIsTheOperation : Prop :=
  ∀ (o : LaneOrder) (i : Instr), i.wf o = true →
    decodeWord o (encode i) = i ∧ decodeBytes o (lanesOf (encode i)) = .ok i

/-- 30_encoding.md R57 ("Every one of the 2^64 W64 words selects the operation DECODE") and R120's bijection: every word is
the word of exactly one operation of the instance, and the table decoder reads every word of 64 bits. Rests on the
spec's own decision (92_eei_decisions.md D2); what is done with other numbers of bits is the model's (log entry 5). -/
def Obligations.EveryWordIsOneOperation : Prop :=
  (∀ (o : LaneOrder) (din : Operand), ∃ i : Instr,
    (i.wf o = true ∧ encode i = din) ∧ ∀ j : Instr, j.wf o = true → encode j = din → j = i) ∧
  (∀ (nbits w : Nat), nbits ≤ 64 → w < 2 ^ nbits →
    ∃ c : Chars, decodeTableWord nbits w = some (.decode c) ∧ (encode (.decode c)).toNat = w) ∧
  (∀ (nbits w : Nat), 64 < nbits → decodeTableWord nbits w = none)

/-- 20_memory.md R36 ("The operand is "exactly 8 bytes"; shorter and longer strings are not representable on the port"):
the decoder takes eight bytes and rejects every other number of bytes by name. The names are the model's (log entry 7). -/
def Obligations.OtherLengthsAreRejectedByName : Prop :=
  ∀ (o : LaneOrder) (bs : List Byte),
    (bs.length < 8 → decodeBytes o bs = .error .operandTooShort) ∧
    (8 < bs.length → decodeBytes o bs = .error .operandTooLong) ∧
    (bs.length = 8 → ∃ i : Instr, decodeBytes o bs = .ok i ∧ i.wf o = true)

/-! ## The step -/

/-- 10_state.md R20, 30_encoding.md R57: a step of an instance does what the word on `din` selects, this hardware's
instance is the LE one, and a word placed by `withFetchWord` is the operation the next step runs; placing it changes
`din` only. The step is the spec's own decision (92_eei_decisions.md D15); `withFetchWord` is the model's (log entry
5). -/
def Obligations.StepRunsTheDecodedOperation : Prop :=
  (∀ s : State, step s = exec (decodeWord .le s.din) s) ∧
  (∀ (o : LaneOrder) (s : State), stepOn o s = exec (decodeWord o s.din) s) ∧
  (∀ (s : State) (nbits w : Nat) (i : Instr), decodeTableWord nbits w = some i →
    step (s.withFetchWord nbits w) = exec i (s.withFetchWord nbits w)) ∧
  (∀ (s : State) (nbits w : Nat),
    (s.withFetchWord nbits w).block = s.block ∧ (s.withFetchWord nbits w).dout = s.dout)

/-- 40_decode.md R70, whole: for every state and every eight characters each row of the table completes, and drives
`{ val(c[0]), ..., val(c[7]) }` when all eight are hex digit codes and `INVALID_OUT(din)` when not; nothing else changes
(no flag, no exception, no state); any word is an operand (match 0, mask 0); and the rule's example "deadbeef". -/
def Obligations.DecodeDrivesTheContractResult : Prop :=
  (∀ (s : State) (c : Chars), exec (.decode c) s = .next { s with
    dout := if validChars c = true then
        digitValue c.c0 ++ digitValue c.c1 ++ digitValue c.c2 ++ digitValue c.c3 ++
          digitValue c.c4 ++ digitValue c.c5 ++ digitValue c.c6 ++ digitValue c.c7
      else Config.invalidOut .le (pack .le c) }) ∧
  (∀ (s : State) (c : Chars), exec (.decodeBe c) s = .next { s with
    dout := if validChars c = true then
        digitValue c.c0 ++ digitValue c.c1 ++ digitValue c.c2 ++ digitValue c.c3 ++
          digitValue c.c4 ++ digitValue c.c5 ++ digitValue c.c6 ++ digitValue c.c7
      else Config.invalidOut .be (pack .be c) }) ∧
  (∀ din : Operand, (∃ c : Chars, decodeWord .le din = .decode c) ∧ ∃ c : Chars, decodeWord .be din = .decodeBe c) ∧
  (∀ s : State,
    step { s with din := 0x6665656264616564 } = .next { s with din := 0x6665656264616564, dout := 0xDEADBEEF } ∧
    stepOn .be { s with din := 0x6465616462656566 } = .next { s with din := 0x6465616462656566, dout := 0xDEADBEEF })

/-- 40_decode.md R72: for every operand a value is produced: every operation completes in every state, and so does every
step, of either instance. -/
def Obligations.EveryEvaluationCompletes : Prop :=
  (∀ (i : Instr) (s : State), ∃ t : State, exec i s = .next t) ∧
  (∀ (o : LaneOrder) (s : State), ∃ t : State, stepOn o s = .next t) ∧
  (∀ s : State, ∃ t : State, step s = .next t)

/-- 60_exceptions.md R130: the list of exception causes is empty, and no evaluation ends in a fault (or a refusal, 10_state.md
R20) for any operand. -/
def Obligations.NoExceptionForAnyOperand : Prop :=
  (∀ _ : Fault, False) ∧
  (∀ (o : LaneOrder) (s : State),
    (∀ f : Fault, stepOn o s ≠ .fault f) ∧ ∀ r : Refusal, stepOn o s ≠ .refused r)

/-- 30_encoding.md R59, 60_exceptions.md R135: an out-of-contract word is evaluated as any other: the step completes with
`INVALID_OUT(din)` on `dout` and nothing else changed, so the word left on `dout` is the only trace of it.
`INVALID_OUT` is the spec's own decision (92_eei_decisions.md D3; log entry 2). -/
def Obligations.OutOfContractWordDrivesInvalidOut : Prop :=
  ∀ (o : LaneOrder) (s : State), validWord o s.din = false →
    stepOn o s = .next { s with dout := Config.invalidOut o s.din }

/-- 40_decode.md R76 (the frame): when an operation completes, the block's state and the operand are as before, so only
`dout` may differ; and an evaluation on one instance leaves every other instance as it was. -/
def Obligations.EvaluationChangesOnlyItsOwnDout : Prop :=
  (∀ (i : Instr) (s t : State), exec i s = .next t → t.block = s.block ∧ t.din = s.din) ∧
  (∀ (sys : System) (k j : Nat) (w : Operand), j ≠ k → (evaluateAt k w sys)[j]? = sys[j]?)

/-- 40_decode.md R75: the same `din` gives the same `dout`, whatever the ports and the block held before, on one instance
and on two with the same parameters; two instances of one lane order that differ in `INVALID_OUT` agree on every
in-contract word, and may differ on another. -/
def Obligations.SameOperandSameResult : Prop :=
  (∀ (o : LaneOrder) (s t s' t' : State), s.din = t.din → stepOn o s = .next s' → stepOn o t = .next t' →
    s'.dout = t'.dout) ∧
  (∀ (p : Params) (s t : State), s.din = t.din → (s.evaluate p).dout = (t.evaluate p).dout) ∧
  (∀ (p q : Params) (din : Operand), p.laneOrder = q.laneOrder → InContract p.laneOrder din →
    decodeOp p din = decodeOp q din) ∧
  (∀ (o : LaneOrder) (din : Operand), ¬ InContract o din →
    ∃ p q : Params, p.laneOrder = o ∧ q.laneOrder = o ∧ decodeOp p din ≠ decodeOp q din)

/-- 20_memory.md R39: (a), (b) the results of a run are, operand by operand, what each operand alone gives, whatever the
machine held before, so any order or repetition gives each operand the same result; (c) evaluations on different instances
commute: they never interact. -/
def Obligations.RunIsElementByElement : Prop :=
  (∀ (s : State) (ws : List Operand), (runOperands s ws).1 = ws.map (decodeOp Config.hexdec)) ∧
  (∀ (sys : System) (j k : Nat) (v w : Operand), j ≠ k →
    evaluateAt j v (evaluateAt k w sys) = evaluateAt k w (evaluateAt j v sys))

/-- 20_memory.md R40, 60_exceptions.md R139 (isolation): whatever the others are given and in whatever interleaving, an
instance ends as if it had been given its own operands alone. The hardware form of concurrency is the spec's own
decision (92_eei_decisions.md D13). -/
def Obligations.InstancesNeverInteract : Prop :=
  ∀ (sys : System) (sched : List (Nat × Operand)) (k : Nat),
    (evaluateAll sys sched)[k]? = (evaluateAll sys (sched.filter fun e => e.1 == k))[k]?

/-- 10_state.md R18, 70_reset_and_hazards.md R150: the invariant "`dout` shows DECODE of the present `din`" is kept by every
step, and indeed established by every step from any state whatever, on either instance. The ports are the spec's own
decisions (92_eei_decisions.md D1, D11). -/
def Obligations.EveryStepKeepsDoutSettled : Prop :=
  (∀ s t : State, Settled Config.hexdec s → step s = .next t → Settled Config.hexdec t) ∧
  (∀ (o : LaneOrder) (s t : State), stepOn o s = .next t → Settled (Config.instanceOf o) t ∧ t.din = s.din)

/-- 10_state.md R21: at power-up `dout` is DECODE of the word then on `din`, whichever word that is. The spec's own
decision (92_eei_decisions.md D11; log entries 3 and 4). -/
def Obligations.PowerUpIsSettled : Prop := Settled Config.hexdec State.reset

/-- 70_reset_and_hazards.md R150 ("and stays there as long as `din` does"): from a settled state any number of further
evaluations with `din` held changes nothing. The spec's own decision (92_eei_decisions.md D11). -/
def Obligations.SettledOutputStays : Prop :=
  ∀ (k : Nat) (s : State), Settled Config.hexdec s → Sys2Proof.core.run k s = .next s

/-! ## The value of DECODE -/

/-- 30_encoding.md R52 to R55: the in-contract codes are exactly the 22 of the code table, with the table's values; on them
`val(c) = c[3:0] + 9 * c[6]` with no carry out of 4 bits, bit 7 is 0 and bit 4 is the complement of bit 6. The code numbers
are the spec's "from general knowledge" (93_implementation_defined.md G1). -/
def Obligations.DigitCodesAndValues : Prop :=
  (∀ c : Byte, valid c = true ↔ (c, digitValue c) ∈ ([
    (0x30, 0), (0x31, 1), (0x32, 2), (0x33, 3), (0x34, 4), (0x35, 5), (0x36, 6), (0x37, 7), (0x38, 8), (0x39, 9),
    (0x41, 10), (0x42, 11), (0x43, 12), (0x44, 13), (0x45, 14), (0x46, 15),
    (0x61, 10), (0x62, 11), (0x63, 12), (0x64, 13), (0x65, 14), (0x66, 15)] : List (Byte × Nibble))) ∧
  (∀ c : Byte, valid c = true →
    (digitValue c).toNat = (c.extractLsb' 0 4).toNat + 9 * (c.getLsbD 6).toNat ∧
    c.getLsbD 7 = false ∧ c.getLsbD 4 = !(c.getLsbD 6))

/-- 20_memory.md R31: "`c[i]` supplies result bits `dout[31-4i : 28-4i]`", on every instance: no parameter changes it. -/
def Obligations.FirstCharacterIsMostSignificant : Prop :=
  ∀ (p : Params) (c : Chars), validChars c = true →
    ∀ i : Fin 8, nibble (decodeOp p (pack p.laneOrder c)) i = digitValue (c.get i)

/-- 40_decode.md R71: the closed forms of the in-contract result, as a number (below 2^32, so nothing is lost), by nibble
and by bit. The closed forms are the spec's own derivation ("[derived: from rule R70 and 30_encoding.md rule R55]"). -/
def Obligations.ClosedFormsOfTheResult : Prop :=
  ∀ (p : Params) (din : Operand), InContract p.laneOrder din →
    (decodeOp p din).toNat =
      ∑ i : Fin 8, (digitValue ((charsOf p.laneOrder din).get i)).toNat * 16 ^ (7 - i.val) ∧
    ∀ i : Fin 8, nibble (decodeOp p din) i = digitValue ((charsOf p.laneOrder din).get i) ∧
      nibble (decodeOp p din) i = laneDigit ((charsOf p.laneOrder din).get i)

/-- 40_decode.md R73: on a string of hex digits the result is that of its upper-case and of its lower-case form, and of
every string that puts some of its letters in upper and the others in lower case. The last clause is the spec's own
derivation ("[derived: from rule R71, since `val` ignores lane bit 5]"), the helpers its decision D17. -/
def Obligations.CaseDoesNotMatter : Prop :=
  ∀ (p : Params) (c : Chars), validChars c = true →
    decodeOp p (pack p.laneOrder (toUpper c)) = decodeOp p (pack p.laneOrder c) ∧
    decodeOp p (pack p.laneOrder (toLower c)) = decodeOp p (pack p.laneOrder c) ∧
    ∀ upper : Fin 8 → Bool, decodeOp p (pack p.laneOrder (withCase upper c)) = decodeOp p (pack p.laneOrder c)

/-- 40_decode.md R74: DECODE recovers every 32-bit number from its eight-digit text in either case; it is onto; and on the
all-lower-case (all-upper-case) strings of hex digits it is a bijection with inverse `toHex_lower` (`toHex_upper`).
Onto and bijection are the spec's own derivation ("[derived: from rule R71]"), the helpers its decision D17. -/
def Obligations.RoundTripThroughHexText : Prop :=
  ∀ p : Params,
    (∀ n : Result, decodeOp p (pack p.laneOrder (toHexLower n)) = n ∧ decodeOp p (pack p.laneOrder (toHexUpper n)) = n) ∧
    (∀ n : Result, ∃ din : Operand, InContract p.laneOrder din ∧ decodeOp p din = n) ∧
    (∀ n : Result, validChars (toHexLower n) = true ∧ toLower (toHexLower n) = toHexLower n ∧
      validChars (toHexUpper n) = true ∧ toUpper (toHexUpper n) = toHexUpper n) ∧
    (∀ c : Chars, validChars c = true → toLower c = c → toHexLower (decodeOp p (pack p.laneOrder c)) = c) ∧
    (∀ c : Chars, validChars c = true → toUpper c = c → toHexUpper (decodeOp p (pack p.laneOrder c)) = c)

/-- 40_decode.md R77: on every string of hex digits the result is what a general-purpose parser of base-16 numerals, by
table look-up and multiplication, returns; on another string of eight characters that parser refuses. The source names no
parser: this one is the model's (log entry 8). -/
def Obligations.AgreesWithAReferenceParser : Prop :=
  ∀ (p : Params) (c : Chars),
    (validChars c = true → hexParse c.toList = some (decodeOp p (pack p.laneOrder c)).toNat) ∧
    (validChars c = false → hexParse c.toList = none)

/-- 40_decode.md R78: replacing one in-contract character by another changes exactly the corresponding nibble. The
spec's own derivation ("[derived: from rule R71]"). -/
def Obligations.OneCharacterOneNibble : Prop :=
  ∀ (p : Params) (c : Chars) (i : Fin 8) (b : Byte), validChars c = true → valid b = true →
    ∀ j : Fin 8, nibble (decodeOp p (pack p.laneOrder (c.set i b))) j =
      if j = i then digitValue b else nibble (decodeOp p (pack p.laneOrder c)) j

/-- 40_decode.md R79: the corner cases: its in-contract rows ("00000000", "ffffffff", "FFFFFFFF", "0000002a", "09090909",
"0a0A0a0A", "DeadBEEF", "80000000", "f0000000", "0000000F", "9a9A9a9A"), and its bytes that are no digit, in any lane.
The table is the spec's own derivation ("[derived: from rule R70]"). -/
def Obligations.CornerCasesOfDecode : Prop :=
  ∀ p : Params,
    (∀ e ∈ ([
      (⟨0x30, 0x30, 0x30, 0x30, 0x30, 0x30, 0x30, 0x30⟩, 0x00000000),
      (⟨0x66, 0x66, 0x66, 0x66, 0x66, 0x66, 0x66, 0x66⟩, 0xFFFFFFFF),
      (⟨0x46, 0x46, 0x46, 0x46, 0x46, 0x46, 0x46, 0x46⟩, 0xFFFFFFFF),
      (⟨0x30, 0x30, 0x30, 0x30, 0x30, 0x30, 0x32, 0x61⟩, 0x0000002A),
      (⟨0x30, 0x39, 0x30, 0x39, 0x30, 0x39, 0x30, 0x39⟩, 0x09090909),
      (⟨0x30, 0x61, 0x30, 0x41, 0x30, 0x61, 0x30, 0x41⟩, 0x0A0A0A0A),
      (⟨0x44, 0x65, 0x61, 0x64, 0x42, 0x45, 0x45, 0x46⟩, 0xDEADBEEF),
      (⟨0x38, 0x30, 0x30, 0x30, 0x30, 0x30, 0x30, 0x30⟩, 0x80000000),
      (⟨0x66, 0x30, 0x30, 0x30, 0x30, 0x30, 0x30, 0x30⟩, 0xF0000000),
      (⟨0x30, 0x30, 0x30, 0x30, 0x30, 0x30, 0x30, 0x46⟩, 0x0000000F),
      (⟨0x39, 0x61, 0x39, 0x41, 0x39, 0x61, 0x39, 0x41⟩, 0x9A9A9A9A)] : List (Chars × Result)),
      decodeOp p (pack p.laneOrder e.1) = e.2) ∧
    (∀ (c : Chars) (i : Fin 8),
      (c.get i ∈ ([0x00, 0x20, 0x67, 0x47, 0x3A, 0x40, 0x60, 0x78, 0x2B, 0x2D] : List Byte) ∨ (c.get i).getLsbD 7 = true) →
      decodeOp p (pack p.laneOrder c) = p.invalidOut (pack p.laneOrder c))

/-- 20_memory.md R34: a string laid out in the order the instance does not expect is still in contract, and decodes as the
reversed string; the example "0000002a" gives 0xa2000000. The spec's own derivation ("[derived: from rule R32 and
40_decode.md rule R70]"). -/
def Obligations.WrongLaneOrderReversesTheString : Prop :=
  (∀ (p : Params) (q : LaneOrder) (c : Chars), q ≠ p.laneOrder → validChars c = true →
    InContract p.laneOrder (pack q c) ∧
    decodeOp p (pack q c) = decodeOp p (pack p.laneOrder c.reverse) ∧
    decodeOp p (pack q c) = numeral c.reverse) ∧
  (∀ s : State, step (s.present (pack .be ⟨0x30, 0x30, 0x30, 0x30, 0x30, 0x30, 0x32, 0x61⟩)) =
    .next ((s.present 0x3030303030303261).drive 0xA2000000))

/-- 30_encoding.md R56, R58: there are 22^8 = 54875873536 in-contract words and 18446744018833678080 others. The
counts are the spec's own derivation ("[derived: from rules R53 and R55]"). -/
def Obligations.CountOfInContractWords : Prop :=
  ∀ o : LaneOrder,
    Nat.card { din : Operand // validWord o din = true } = 54875873536 ∧
    Nat.card { din : Operand // validWord o din = false } = 18446744018833678080

/-- 20_memory.md R36: a caller's shorter string of hex digits, padded on the left with '0', decodes to the number the short
string spells; a string of more than eight characters has no operand; the byte 0x00 is no pad character. -/
def Obligations.ShortStringsArePaddedWithZeroDigits : Prop :=
  (∀ (p : Params) (s : List Byte), s.length ≤ 8 → s.all valid = true →
    ∃ c : Chars, padLeft s = some c ∧ InContract p.laneOrder (pack p.laneOrder c) ∧
      hexParse s = some (decodeOp p (pack p.laneOrder c)).toNat) ∧
  (∀ s : List Byte, 8 < s.length → padLeft s = none) ∧
  valid 0x00 = false

/-! ## The reference datapath -/

/-- 41_datapath.md R99 and R108: on every in-contract word the reference datapath gives the contract's value, whatever
`INVALID_OUT` is; so the instance whose `INVALID_OUT` is the datapath is the datapath on every word. The datapath is
the spec's own decision (92_eei_decisions.md D5), its correctness the spec's derivation. -/
def Obligations.DatapathMeetsTheContract : Prop :=
  (∀ (p : Params) (din : Operand), InContract p.laneOrder din → dp p.laneOrder din = decodeOp p din) ∧
  (∀ (o : LaneOrder) (din : Operand), decodeOp (referenceInstance o) din = dp o din)

/-- 41_datapath.md R109: what the datapath gives on EVERY word, from the codes and the carries between lanes; and the
lane-wise function `g` of each character's own lane when no code is 0xF6 or above. A claim about the reference datapath only
(30_encoding.md R60). The spec's own derivation ("[derived: from rules R95, R96 and R101]"). -/
def Obligations.DatapathOutOfContract : Prop :=
  (∀ (o : LaneOrder) (din : Operand), dp o din = dpByLanes o din) ∧
  (∀ (o : LaneOrder) (din : Operand), (∀ L : Nat, L < 8 → lane din L < 0xF6) →
    ∀ i : Fin 8, nibble (dp o din) i = laneDigit ((charsOf o din).get i))

/-- 41_datapath.md R91, R92, R110: lane by lane, `b` is 0x40 and `k` is 0x09 exactly where bit 6 is set, and `k` is also the
product and the sum that R92 names, for every word. The constants are the spec's own decisions (92_eei_decisions.md
D4, D5). -/
def Obligations.CorrectionIsNineInLetterLanes : Prop :=
  ∀ din : Operand,
    (∀ L : Nat, L < 8 →
      lane (letterBits din) L = (if (lane din L).getLsbD 6 = true then 0x40 else 0x00) ∧
      lane (correctionWord (letterBits din)) L = (if (lane din L).getLsbD 6 = true then 0x09 else 0x00)) ∧
    correctionByProduct (letterBits din) = correctionWord (letterBits din) ∧
    correctionBySum (letterBits din) = correctionWord (letterBits din)

/-- 41_datapath.md R101: the 64-bit addition lane by lane, for any two words, with carries of 0 or 1; and a lane of the
datapath can carry out only if its code is 0xF6 or above. The addition is the spec's own decision (92_eei_decisions.md
D5). -/
def Obligations.AdditionByLanes : Prop :=
  (∀ (a b : Operand) (L : Nat), L < 8 →
    lane (a + b) L = BitVec.ofNat 8 (laneSum a b L) ∧ laneCarryIn a b (L + 1) = laneSum a b L / 256 ∧
    laneCarryIn a b L ≤ 1) ∧
  (∀ (din : Operand) (L : Nat), L < 8 → laneCarryIn din (correctionWord (letterBits din)) (L + 1) = 1 →
    0xF6 ≤ lane din L)

/-- 41_datapath.md R93, R94, R101: on an in-contract word no lane carries out, every lane of `v1` keeps its high nibble and
has the digit's value as its low nibble, and every lane of `v2` is that value. The datapath is the spec's own decision
(92_eei_decisions.md D5). -/
def Obligations.CorrectionStaysInItsLane : Prop :=
  ∀ (o : LaneOrder) (din : Operand), InContract o din →
    ∀ L : Nat, L < 8 →
      laneCarryIn din (correctionWord (letterBits din)) (L + 1) = 0 ∧
      (lane (nets o din).v1 L).extractLsb' 4 4 = (lane din L).extractLsb' 4 4 ∧
      (lane (nets o din).v1 L).extractLsb' 0 4 = digitValue (lane din L) ∧
      lane (nets o din).v2 L = (digitValue (lane din L)).setWidth 8

/-- 41_datapath.md R97, R98, R104: where each nibble is after each packing stage, for every word: with `n i` the low nibble
of the lane of `v1` that holds character `i`, `w` holds the bytes `{n[2j], n[2j+1]}`, `x` the half-words, `r` the eight
nibbles in order, and every other bit is 0. The packing is the spec's own decision (92_eei_decisions.md D5). -/
def Obligations.PackingStagesPlaceTheNibbles : Prop :=
  ∀ (o : LaneOrder) (din : Operand) (n : Fin 8 → Nibble),
    (∀ i : Fin 8, n i = (lane (nets o din).v1 (laneOf o i)).extractLsb' 0 4) →
    (∀ i : Fin 8, lane (nets o din).v2 (laneOf o i) = (n i).setWidth 8) ∧
    (match o with
      | .le => (nets o din).w =
          0#8 ++ (n 6 ++ n 7) ++ 0#8 ++ (n 4 ++ n 5) ++ 0#8 ++ (n 2 ++ n 3) ++ 0#8 ++ (n 0 ++ n 1)
      | .be => (nets o din).w =
          0#8 ++ (n 0 ++ n 1) ++ 0#8 ++ (n 2 ++ n 3) ++ 0#8 ++ (n 4 ++ n 5) ++ 0#8 ++ (n 6 ++ n 7)) ∧
    (match o with
      | .le => (nets o din).x = 0#16 ++ (n 4 ++ n 5 ++ n 6 ++ n 7) ++ 0#16 ++ (n 0 ++ n 1 ++ n 2 ++ n 3)
      | .be => (nets o din).x = 0#16 ++ (n 0 ++ n 1 ++ n 2 ++ n 3) ++ 0#16 ++ (n 4 ++ n 5 ++ n 6 ++ n 7)) ∧
    (nets o din).r = (joinNibbles (n 0) (n 1) (n 2) (n 3) (n 4) (n 5) (n 6) (n 7)).setWidth 64 ∧
    dp o din = joinNibbles (n 0) (n 1) (n 2) (n 3) (n 4) (n 5) (n 6) (n 7)

/-- 41_datapath.md R107: on in-contract words the datapath's result depends on bits 6 and 3..0 of each lane only. The
spec's own derivation ("[derived: from rules R91 to R94]"). -/
def Obligations.CaseBitsAreIgnored : Prop :=
  ∀ (o : LaneOrder) (din din' : Operand), InContract o din → InContract o din' →
    din &&& 0x4F4F4F4F4F4F4F4F = din' &&& 0x4F4F4F4F4F4F4F4F → dp o din = dp o din'

/-- 41_datapath.md R110: the equivalent circuits: the per-lane converters are the datapath on every word with no code of 0xF6
or above, the mask-first form is the per-lane converters on every word, and both meet the contract. The spec's own
derivation ("[derived: from rule R99 and 40_decode.md rule R71]"). -/
def Obligations.EquivalentCircuits : Prop :=
  (∀ (o : LaneOrder) (din : Operand), (∀ L : Nat, L < 8 → lane din L < 0xF6) → perLaneConverters o din = dp o din) ∧
  (∀ (o : LaneOrder) (din : Operand), maskFirst o din = perLaneConverters o din) ∧
  (∀ (p : Params) (din : Operand), InContract p.laneOrder din →
    perLaneConverters p.laneOrder din = decodeOp p din ∧ maskFirst p.laneOrder din = decodeOp p din)

/-- 95_test_vectors.md P6, 41_datapath.md R100, R102, 70_reset_and_hazards.md R160: the straight-line list of gates computes
the datapath for every word; it has the rule's 18 and 15 gates, kind by kind, and the rule's shift distances. The
sequence is the spec's own decision (92_eei_decisions.md D5). -/
def Obligations.GatesComputeTheDatapath : Prop :=
  (∀ (o : LaneOrder) (din : Operand), circuitOut o din = dp o din) ∧
  ((circuit .le).length = 18 ∧ countKind .andKind (circuit .le) = 5 ∧ countKind .orKind (circuit .le) = 4 ∧
    countKind .leftKind (circuit .le) = 3 ∧ countKind .rightKind (circuit .le) = 5 ∧ countKind .addKind (circuit .le) = 1) ∧
  ((circuit .be).length = 15 ∧ countKind .andKind (circuit .be) = 5 ∧ countKind .orKind (circuit .be) = 4 ∧
    countKind .leftKind (circuit .be) = 0 ∧ countKind .rightKind (circuit .be) = 5 ∧ countKind .addKind (circuit .be) = 1) ∧
  shiftDistances (circuit .le) = [6, 3, 4, 8, 8, 16, 16, 32] ∧ shiftDistances (circuit .be) = [6, 3, 4, 8, 16]

/-- 41_datapath.md R111: the trace of "deadbeef", both lane orders: the nets `v0, b, k, v1, v2, w, x, r` in order. The
spec's own derivation ("[derived: from rules R95 and R96]"). -/
def Obligations.TraceOfDeadbeef : Prop :=
  nets .le 0x6665656264616564 = ⟨0x6665656264616564, 0x4040404040404040, 0x0909090909090909, 0x6F6E6E6B6D6A6E6D,
    0x0F0E0E0B0D0A0E0D, 0x00EF00BE00AD00DE, 0x0000BEEF0000DEAD, 0x00000000DEADBEEF⟩ ∧
  nets .be 0x6465616462656566 = ⟨0x6465616462656566, 0x4040404040404040, 0x0909090909090909, 0x6D6E6A6D6B6E6E6F,
    0x0D0E0A0D0B0E0E0F, 0x00DE00AD00BE00EF, 0x0000DEAD0000BEEF, 0x00000000DEADBEEF⟩

/-! ## The caller's duties -/

/-- 70_reset_and_hazards.md R154, R155; 93_implementation_defined.md U6: a use of the block that meets the caller's duties of
time gives DECODE of the operand on `dout`, whatever `T_PD` is; one that breaks a duty is given no meaning, by name. Which of
the two a use is does not depend on the operand (R159). The form of a use is the model's (log entry 6). The duties are
the spec's own decision (92_eei_decisions.md D12). -/
def Obligations.CallerDutiesOfTime : Prop :=
  (∀ (tPd : Nat) (u : Use) (s : State), tPd ≤ u.takenAt → u.takenAt ≤ u.heldFor →
    takeResult tPd u s = .next { s with din := u.operand, dout := decodeOp Config.hexdec u.operand }) ∧
  (∀ (tPd : Nat) (u : Use) (s : State), u.takenAt < tPd → takeResult tPd u s = .refused .takenBeforeSettled) ∧
  (∀ (tPd : Nat) (u : Use) (s : State), tPd ≤ u.takenAt → u.heldFor < u.takenAt →
    takeResult tPd u s = .refused .inputNotHeld) ∧
  (∀ (tPd : Nat) (u v : Use) (s : State), u.heldFor = v.heldFor → u.takenAt = v.takenAt →
    ((∃ t : State, takeResult tPd u s = .next t) ↔ ∃ t : State, takeResult tPd v s = .next t))
end

