-- ==== Sys2Proof/Laws/Codec.lean ====
section
/-! SUPPORT. Laws/Codec.lean: lanes, characters and nibbles bit by bit: what later proofs cite instead of unfolding
`lane`, `charsOf`, `pack`, `joinNibbles`. -/

namespace Sys2Proof

/-- A bit of a lane is the bit of the word at its place. -/
theorem lane_getLsbD (v : Operand) (L i : Nat) : (lane v L).getLsbD i = (decide (i < 8) && v.getLsbD (8 * L + i)) := by
  simp [lane, BitVec.getLsbD_extractLsb']

/-- A word is known by its eight lanes. -/
theorem eq_of_lanes (a b : Operand) (h : ∀ L, L < 8 → lane a L = lane b L) : a = b := by
  apply BitVec.eq_of_getLsbD_eq
  intro j hj
  have hbit := congrArg (fun n : Byte => n.getLsbD (j % 8)) (h (j / 8) (by omega))
  have hplace : 8 * (j / 8) + j % 8 = j := by omega
  have hlt : j % 8 < 8 := by omega
  simpa only [lane_getLsbD, hplace, hlt, decide_true, Bool.true_and] using hbit

theorem laneOf_lt (o : LaneOrder) (i : Fin 8) : laneOf o i < 8 := by
  cases o <;> simp only [laneOf] <;> omega

theorem Chars.get_ofFn (f : Fin 8 → Byte) (i : Fin 8) : (Chars.ofFn f).get i = f i := by
  fin_cases i <;> rfl

/-- A string is known by its characters. -/
theorem Chars.ext_get (c d : Chars) (h : ∀ i, c.get i = d.get i) : c = d := by
  ext1 <;> [exact h 0; exact h 1; exact h 2; exact h 3; exact h 4; exact h 5; exact h 6; exact h 7]

theorem charsOf_get (o : LaneOrder) (din : Operand) (i : Fin 8) : (charsOf o din).get i = lane din (laneOf o i) :=
  Chars.get_ofFn _ i

/-- `pack_LE` is the concatenation with the first character lowest. -/
theorem pack_le_append (c : Chars) : pack .le c = c.c7 ++ c.c6 ++ c.c5 ++ c.c4 ++ c.c3 ++ c.c2 ++ c.c1 ++ c.c0 := by
  apply BitVec.eq_of_getLsbD_eq
  intro i hi
  simp only [pack, BitVec.getLsbD_or, BitVec.getLsbD_shiftLeft, BitVec.getLsbD_setWidth, BitVec.getLsbD_append]
  interval_cases i <;> simp

/-- `pack_BE` is `pack_LE` of the reversed string. -/
theorem pack_be_reverse (c : Chars) : pack .be c = pack .le c.reverse := rfl

theorem Chars.reverse_reverse (c : Chars) : c.reverse.reverse = c := rfl

/-- The characters of a word under BE are those under LE, reversed. -/
theorem charsOf_be (w : Operand) : charsOf .be w = (charsOf .le w).reverse := rfl

/-- Field extraction undoes `pack` (R120). -/
theorem charsOf_le_pack_le (c : Chars) : charsOf .le (pack .le c) = c := by
  rw [pack_le_append]
  ext i hi <;>
  simp only [charsOf, Chars.ofFn, lane, laneOf, BitVec.getElem_extractLsb', BitVec.getLsbD_append] <;>
  interval_cases i <;> simp [← BitVec.getLsbD_eq_getElem]

/-- `pack` undoes field extraction (R120). -/
theorem pack_le_charsOf_le (w : Operand) : pack .le (charsOf .le w) = w := by
  rw [pack_le_append]
  apply BitVec.eq_of_getLsbD_eq
  intro i hi
  simp only [charsOf, Chars.ofFn, lane, laneOf, BitVec.getLsbD_extractLsb', BitVec.getLsbD_append]
  interval_cases i <;> simp

theorem pack_charsOf (o : LaneOrder) (w : Operand) : pack o (charsOf o w) = w := by
  cases o
  · exact pack_le_charsOf_le w
  · rw [charsOf_be, pack_be_reverse, Chars.reverse_reverse, pack_le_charsOf_le]

theorem charsOf_pack (o : LaneOrder) (c : Chars) : charsOf o (pack o c) = c := by
  cases o
  · exact charsOf_le_pack_le c
  · rw [pack_be_reverse, charsOf_be, charsOf_le_pack_le, Chars.reverse_reverse]

namespace Machine

/-- Nibble `i` of eight joined nibbles. -/
theorem nibble_joinNibbles (n : Fin 8 → Nibble) (i : Fin 8) :
    nibble (joinNibbles (n 0) (n 1) (n 2) (n 3) (n 4) (n 5) (n 6) (n 7)) i = n i := by
  apply BitVec.eq_of_getLsbD_eq
  intro j hj
  simp only [nibble, joinNibbles, BitVec.getLsbD_extractLsb', BitVec.getLsbD_append]
  fin_cases i <;> interval_cases j <;> simp

/-- A result is known by its nibbles. -/
theorem eq_of_nibbles (a b : Result) (h : ∀ i, nibble a i = nibble b i) : a = b := by
  apply BitVec.eq_of_getLsbD_eq
  intro j hj
  have hbit := congrArg (fun n : Nibble => n.getLsbD (j % 4)) (h ⟨7 - j / 4, by omega⟩)
  have hplace : 28 - 4 * (7 - j / 4) + j % 4 = j := by omega
  have hlt : j % 4 < 4 := by omega
  simpa [nibble, BitVec.getLsbD_extractLsb', hplace, hlt] using hbit

/-- In contract means every character is a hex digit code. -/
theorem validChars_iff (c : Chars) : validChars c = true ↔ ∀ i, valid (c.get i) = true := by
  simp [validChars, Chars.toList, Fin.forall_fin_succ, Chars.get]

end Machine

end Sys2Proof
end

