-- ==== Sys2Proof/Laws/State.lean ====
section
/-! SUPPORT. Laws/State.lean: each field of the state after each update. -/

namespace Sys2Proof.Machine

@[simp] theorem State.drive_block (s : State) (v : Result) : (s.drive v).block = s.block := rfl
@[simp] theorem State.drive_din (s : State) (v : Result) : (s.drive v).din = s.din := rfl
@[simp] theorem State.drive_dout (s : State) (v : Result) : (s.drive v).dout = v := rfl

@[simp] theorem State.present_block (s : State) (w : Operand) : (s.present w).block = s.block := rfl
@[simp] theorem State.present_din (s : State) (w : Operand) : (s.present w).din = w := rfl
@[simp] theorem State.present_dout (s : State) (w : Operand) : (s.present w).dout = s.dout := rfl

@[simp] theorem State.evaluate_block (p : Params) (s : State) : (s.evaluate p).block = s.block := rfl
@[simp] theorem State.evaluate_din (p : Params) (s : State) : (s.evaluate p).din = s.din := rfl
@[simp] theorem State.evaluate_dout (p : Params) (s : State) : (s.evaluate p).dout = decodeOp p s.din := rfl

@[simp] theorem State.withFetchWord_block (s : State) (nbits w : Nat) : (s.withFetchWord nbits w).block = s.block := rfl
@[simp] theorem State.withFetchWord_din (s : State) (nbits w : Nat) :
    (s.withFetchWord nbits w).din = tableWord nbits w := rfl
@[simp] theorem State.withFetchWord_dout (s : State) (nbits w : Nat) : (s.withFetchWord nbits w).dout = s.dout := rfl

@[simp] theorem State.reset_block : State.reset.block = {} := rfl
@[simp] theorem State.reset_din : State.reset.din = Config.dinAtPowerUp := rfl

/-- The block's own state is the one-element type (10_state.md R20): two blocks never differ. -/
theorem block_eq (a b : Block) : a = b := rfl

end Sys2Proof.Machine
end

