-- ==== Sys2Proof/Laws/Ops.lean ====
section
/-! SUPPORT. Laws/Ops.lean: for each shared operation, once, everything it can do. -/

namespace Sys2Proof.Machine

/-- DECODE on a word in contract. -/
theorem decodeOp_of_valid (p : Params) (din : Operand) (h : validWord p.laneOrder din = true) :
    decodeOp p din = numeral (charsOf p.laneOrder din) := if_pos h

/-- DECODE on a word out of contract. -/
theorem decodeOp_of_invalid (p : Params) (din : Operand) (h : validWord p.laneOrder din = false) :
    decodeOp p din = p.invalidOut din := if_neg (by simp [h])

/-- DECODE on a packed string. -/
theorem decodeOp_pack (p : Params) (c : Chars) :
    decodeOp p (pack p.laneOrder c) = if validChars c = true then numeral c else p.invalidOut (pack p.laneOrder c) := by
  simp [decodeOp, validWord, charsOf_pack]

/-- Each row of the table drives `dout` with DECODE of its operand's word, and does nothing else. -/
theorem exec_drives (i : Instr) (s : State) :
    exec i s = .next (s.drive (decodeOp (Config.instanceOf i.laneOrder) (encode i))) := by
  cases i <;> rfl

/-- A step of an instance is one evaluation of the contract on the word present. -/
theorem stepOn_evaluates (o : LaneOrder) (s : State) : stepOn o s = .next (s.evaluate (Config.instanceOf o)) := by
  cases o <;> simp [stepOn, decodeWord, exec, execDecode, execDecodeBe, pack_charsOf, State.evaluate, State.readDin]

/-- A use by the caller: the duties of time decide, and then it is one step. -/
theorem takeResult_cases (tPd : Nat) (u : Use) (s : State) :
    (u.takenAt < tPd ∧ takeResult tPd u s = .refused .takenBeforeSettled) ∨
    (tPd ≤ u.takenAt ∧ u.heldFor < u.takenAt ∧ takeResult tPd u s = .refused .inputNotHeld) ∨
    (u.dutiful tPd = true ∧ takeResult tPd u s = step (s.present u.operand)) := by
  rcases Nat.lt_or_ge u.takenAt tPd with hEarly | hSettled
  · exact .inl ⟨hEarly, if_pos hEarly⟩
  · rcases Nat.lt_or_ge u.heldFor u.takenAt with hChanged | hHeld
    · exact .inr (.inl ⟨hSettled, hChanged, by simp [takeResult, Nat.not_lt.mpr hSettled, hChanged]⟩)
    · exact .inr (.inr ⟨by simp [Use.dutiful, hSettled, hHeld],
        by simp [takeResult, Nat.not_lt.mpr hSettled, Nat.not_lt.mpr hHeld]⟩)

end Sys2Proof.Machine
end

