-- ==== Sys2Proof/Laws/PerInstr.lean ====
section
/-! SUPPORT. Laws/PerInstr.lean: facts about every row of the opcode table, one lemma per constructor. -/

namespace Sys2Proof.Laws.OneRowPerInstance

/-- The row is an operation of the instances of one lane order and of no others (30_encoding.md R57). -/
def Statement (i : Instr) : Prop := ∀ o : LaneOrder, i.wf o = true ↔ o = i.laneOrder

theorem decode (c : Chars) : Statement (.decode c) := by
  intro o
  simp [Instr.wf, eq_comm]

theorem decodeBe (c : Chars) : Statement (.decodeBe c) := by
  intro o
  simp [Instr.wf, eq_comm]

end Sys2Proof.Laws.OneRowPerInstance
end

