-- ==== Sys2Proof/Machine/Listing.lean ====
section
/-! DEFINITION. Machine/Listing.lean: the textual syntax of an evaluation (30_encoding.md rule R61): `DECODE "xxxxxxxx"`,
`DECODE.W 0x` with 16 hex digits, and the listing form `=> 0x` with 8 hex digits. Notation only (92_eei_decisions.md D9):
the assembler gives the operand word and no behaviour. There are no pseudo-instructions (R62). -/

namespace Sys2Proof.Machine

/-- One written evaluation. -/
inductive Line where
  /-- `DECODE "s"`. -/
  | chars (c : Chars)
  /-- `DECODE.W 0xHHHHHHHHHHHHHHHH`, the raw word. It denotes the same operation. -/
  | raw (w : Operand)
deriving DecidableEq, Repr

/-- The operand word a line assembles to (30_encoding.md R61: "`DECODE "s"` assembles to the W64 word `pack(s)`"). -/
def Line.word (o : LaneOrder) : Line → Operand
  | .chars c => pack o c
  | .raw w => w

/-- The code of an ASCII character (00_scope.md section 5), none for another character. -/
def asciiCode (ch : Char) : Option Byte := if ch.toNat < 128 then some (BitVec.ofNat 8 ch.toNat) else none

/-- The codes of a text, none if some character is not ASCII. -/
def asciiCodes : List Char → Option (List Byte)
  | [] => some []
  | ch :: rest =>
    match asciiCode ch, asciiCodes rest with
    | some b, some bs => some (b :: bs)
    | _, _ => none

/-- The number a text of exactly `n` hex digits spells. -/
def hexNumber (n : Nat) (text : List Char) : Option Nat :=
  if text.length = n then
    match asciiCodes text with
    | some bs => hexParse bs
    | none => none
  else none

/-- Eight characters of a quoted operand. -/
def quoted (text : List Char) : Option Chars :=
  match asciiCodes text with
  | some [b0, b1, b2, b3, b4, b5, b6, b7] => some ⟨b0, b1, b2, b3, b4, b5, b6, b7⟩
  | _ => none

/-- One evaluation read from the front of a text, with the text left over. -/
def parseLine : List Char → Option (Line × List Char)
  | 'D' :: 'E' :: 'C' :: 'O' :: 'D' :: 'E' :: ' ' :: '"' :: rest =>
    match quoted (rest.take 8), rest.drop 8 with
    | some c, '"' :: left => some (.chars c, left)
    | _, _ => none
  | 'D' :: 'E' :: 'C' :: 'O' :: 'D' :: 'E' :: '.' :: 'W' :: ' ' :: '0' :: 'x' :: rest =>
    match hexNumber 16 (rest.take 16) with
    | some n => some (.raw (BitVec.ofNat 64 n), rest.drop 16)
    | none => none
  | _ => none

/-- The word a whole line of text assembles to. -/
def assemble (o : LaneOrder) (text : List Char) : Option Operand :=
  match parseLine text with
  | some (l, []) => some (l.word o)
  | _ => none

/-- A listing line, `DECODE "s"  => 0xRRRRRRRR`: the operand word and the expected `dout`. -/
def assembleListing (o : LaneOrder) (text : List Char) : Option (Operand × Result) :=
  match parseLine text with
  | some (l, ' ' :: ' ' :: '=' :: '>' :: ' ' :: '0' :: 'x' :: digits) =>
    match hexNumber 8 digits with
    | some n => some (l.word o, BitVec.ofNat 32 n)
    | none => none
  | _ => none

end Sys2Proof.Machine
end

