-- ==== Sys2Proof/Tests/Slice0.lean ====
section
/-! SUPPORT. Tests/Slice0.lean: tests whose expected results stand in spec/ (each names where), the smoke test of
WellFormed, and a witness for the hypotheses of every statement of Certificates/Slice0/Obligations.lean. -/

namespace Sys2Proof.Tests

open Machine

/-! ## Small data -/

/-- Ports at rest: `din` as given, `dout` 0. -/
def ports (din : Operand) : State := ⟨{}, din, 0⟩

/-- What `dout` shows when an outcome is a next state. -/
def doutOf : Host.Outcome State Fault Refusal → Option Result
  | .next s => some s.dout
  | .fault _ => none
  | .refused _ => none

/-- "deadbeef". -/
def deadbeef : Chars := ⟨0x64, 0x65, 0x61, 0x64, 0x62, 0x65, 0x65, 0x66⟩
/-- "DeadBEEF". -/
def deadBEEF : Chars := ⟨0x44, 0x65, 0x61, 0x64, 0x42, 0x45, 0x45, 0x46⟩
/-- "DEADBEEF". -/
def allUpper : Chars := ⟨0x44, 0x45, 0x41, 0x44, 0x42, 0x45, 0x45, 0x46⟩
/-- "0000002a". -/
def two_a : Chars := ⟨0x30, 0x30, 0x30, 0x30, 0x30, 0x30, 0x32, 0x61⟩
/-- "0000002g", out of contract (95_test_vectors.md P5, step 2). -/
def two_g : Chars := ⟨0x30, 0x30, 0x30, 0x30, 0x30, 0x30, 0x32, 0x67⟩

/-! ## WellFormed: the one check, and what it refuses -/

theorem test_wf_refuses_the_other_row :
    (Instr.decodeBe deadbeef).wf .le = false ∧ (Instr.decode deadbeef).wf .be = false := by decide

theorem test_wf_accepts_the_row :
    (Instr.decode two_g).wf .le = true ∧ (Instr.decodeBe two_g).wf .be = true := by decide

/-! ## Decoding words written out from 30_encoding.md R51 -/

/-- Row DECODE: pattern hhhhhhhh...aaaaaaaa, c0 in the low byte. -/
theorem test_decode_word_le :
    decodeWord .le 0b0110011001100101011001010110001001100100011000010110010101100100 = .decode deadbeef := by decide

/-- Row DECODE_BE: pattern aaaaaaaa...hhhhhhhh, c0 in the high byte. -/
theorem test_decode_word_be :
    decodeWord .be 0b0110010001100101011000010110010001100010011001010110010101100110 = .decodeBe deadbeef := by decide

/-- 42_boundary_and_absent_classes.md R120's examples. -/
theorem test_pack_examples :
    pack .le deadbeef = 0x6665656264616564 ∧ pack .be deadbeef = 0x6465616462656566 ∧
    pack .le two_a = 0x6132303030303030 ∧ pack .be two_a = 0x3030303030303261 := by decide

/-- A row's bits given short: the bits above `nbits` are 0. -/
theorem test_table_word_short : decodeTableWord 8 0x66 = some (.decode ⟨0x66, 0, 0, 0, 0, 0, 0, 0⟩) := by decide

theorem test_decode_rejects_seven_and_nine_bytes :
    decodeBytes .le (List.replicate 7 0x30) = .error .operandTooShort ∧
    decodeBytes .le (List.replicate 9 0x30) = .error .operandTooLong := by decide

/-! ## The operation (95_test_vectors.md sections 1 and 3) -/

theorem test_decode_mixed_case : doutOf (execDecode deadBEEF (ports 0)) = some 0xDEADBEEF := by decide

/-- "0a0A0a0A" on the port of this hardware. -/
theorem test_step_digit_letter_transitions :
    doutOf (step (State.reset.withFetchWord 64 0x4130613041306130)) = some 0x0A0A0A0A := by decide

theorem test_decode_be_mixed_case : doutOf (execDecodeBe deadBEEF (ports 0)) = some 0xDEADBEEF := by decide

/-- "7fffffff" on the port of a BE instance. -/
theorem test_step_be_top_digit : doutOf (stepOn .be (ports 0x3766666666666666)) = some 0x7FFFFFFF := by decide

/-- 40_decode.md R80's 22 repeated strings, on the reference instance of either lane order. -/
theorem test_repeated_characters : ∀ (o : LaneOrder), o = .le ∨ o = .be → ∀ n : Nibble,
    decodeOp (referenceInstance o) (pack o (Chars.ofFn fun _ => digitLower n)) = joinNibbles n n n n n n n n ∧
    decodeOp (referenceInstance o) (pack o (Chars.ofFn fun _ => digitUpper n)) = joinNibbles n n n n n n n n := by
  intro o _
  cases o <;> decide

/-! ## The reference datapath (95_test_vectors.md sections 6 and 7) -/

/-- P6, the values of lines 1 to 18 for "0F1e2D3c". -/
theorem test_gate_listing_p6 : runGates [0x6333443265314630] (circuit .le) =
    [0x6333443265314630, 0x4000400040004000, 0x0100010001000100, 0x0800080008000800, 0x0900090009000900,
     0x6C334D326E314F30, 0x0C030D020E010F00, 0xC030D020E010F000, 0x000C030D020E010F, 0xC03CD32DE21EF10F,
     0x003C002D001E000F, 0x3C002D001E000F00, 0x0000003C002D001E, 0x3C002D3C1E2D0F1E, 0x00002D3C00000F1E,
     0x2D3C00000F1E0000, 0x0000000000002D3C, 0x2D3C00000F1E2D3C, 0x000000000F1E2D3C] := by decide

/-- Section 6: a carry into a neighbour, a carry chain, a carry lost from lane 7, and 0xF6 alone. -/
theorem test_datapath_out_of_contract :
    dp .le 0x303030303030FF30 = 0x08100000 ∧ dp .be 0x30FF303030303030 = 0x18000000 ∧
    dp .le 0x303030303030F6FF = 0x80100000 ∧ dp .be 0xFF30303030303030 = 0x80000000 ∧
    dp .le 0xFFFFFFFFFFFFFFFF = 0x89999999 ∧ dp .be 0xFFFFFFFFFFFFFFFF = 0x99999998 ∧
    dp .le 0x303030303030F630 = 0x0F000000 := by decide

/-- 41_datapath.md R109's examples of `g`. -/
theorem test_lane_digit :
    laneDigit 0x67 = 0 ∧ laneDigit 0x3A = 10 ∧ laneDigit 0x40 = 9 ∧ laneDigit 0x2F = 15 ∧ laneDigit 0x78 = 1 ∧
    laneDigit 0x7A = 3 ∧ laneDigit 0x2D = 13 ∧ laneDigit 0x80 = 0 := by decide

/-! ## The caller's side -/

/-- 95_test_vectors.md P3: the two operands of "0123456789abcdef" in a caller's memory at address 0. -/
theorem test_caller_load_p3 :
    let mem (a : Nat) : Byte := hexDigits.getD a 0
    callerLoad .le mem 0 = 0x3736353433323130 ∧ callerLoad .le mem 8 = 0x6665646362613938 ∧
    callerLoad .be mem 8 = 0x3839616263646566 := by decide

/-- 95_test_vectors.md section 5: 42 in hex text. -/
theorem test_hex_text_of_42 : toHexLower 42 = two_a ∧ (toHexUpper 42).c7 = 0x41 := by decide

/-- 30_encoding.md R61: both spellings, and a listing line. -/
theorem test_assembler :
    assemble .le "DECODE \"deadbeef\"".toList = some 0x6665656264616564 ∧
    assemble .be "DECODE.W 0x3030303030303267".toList = some 0x3030303030303267 ∧
    assembleListing .be "DECODE \"deadbeef\"  => 0xDEADBEEF".toList = some (0x6465616462656566, 0xDEADBEEF) ∧
    assemble .le "DECODE \"dead\"".toList = none := by decide

/-! ## Witnesses: the hypotheses of each statement are met -/

theorem witness_DecodeOfEncode :
    (Instr.decode two_g).wf .le = true ∧ (Instr.decodeBe ⟨0xFF, 0, 0x30, 0x39, 0x41, 0x46, 0x61, 0x66⟩).wf .be = true := by
  decide

theorem witness_EveryWordIsOneOperation :
    ((Instr.decode deadbeef).wf .le = true ∧ encode (.decode deadbeef) = 0x6665656264616564) ∧
    (64 ≤ 64 ∧ 0xFFFFFFFFFFFFFFFF < 2 ^ 64) ∧ (0 ≤ 64 ∧ 0 < 2 ^ 0) ∧ 64 < 65 := by decide

theorem witness_OtherLengths :
    ([] : List Byte).length < 8 ∧ (List.replicate 7 (0x30 : Byte)).length < 8 ∧ 8 < (List.replicate 9 (0x30 : Byte)).length ∧
    deadbeef.toList.length = 8 := by decide

theorem witness_StepRuns : decodeTableWord 64 0x6732303030303030 = some (.decode two_g) := by decide

/-- Boundary bytes just outside each range of digit codes, one per clause of `Valid`. -/
theorem witness_OutOfContract :
    validWord .le (ports 0x6732303030303030).din = false ∧ validWord .be (ports 0x3030303030303267).din = false ∧
    valid 0x2F = false ∧ valid 0x3A = false ∧ valid 0x40 = false ∧ valid 0x47 = false ∧ valid 0x60 = false := by decide

theorem witness_EvaluationChanges :
    exec (.decode deadbeef) (ports 7) = .next ⟨{}, 7, 0xDEADBEEF⟩ ∧ exec (.decodeBe deadbeef) (ports 7) = .next ⟨{}, 7, 0xDEADBEEF⟩ ∧
    (1 : Nat) ≠ 0 := by
  have hLe : decodeOp (Config.instanceOf .le) (pack .le deadbeef) = 0xDEADBEEF := by decide
  have hBe : decodeOp (Config.instanceOf .be) (pack .be deadbeef) = 0xDEADBEEF := by decide
  exact ⟨congrArg (fun v => Host.Outcome.next ((ports 7).drive v)) hLe,
    congrArg (fun v => Host.Outcome.next ((ports 7).drive v)) hBe, by decide⟩

/-- A word evaluated from two different `dout`s. -/
theorem witness_SameOperand :
    (ports 0x6132303030303030).din = (State.mk {} 0x6132303030303030 9).din ∧
    stepOn .le (ports 0x6132303030303030) = .next ⟨{}, 0x6132303030303030, 42⟩ ∧
    stepOn .le (State.mk {} 0x6132303030303030 9) = .next ⟨{}, 0x6132303030303030, 42⟩ ∧
    (Config.hexdec.laneOrder = (referenceInstance .le).laneOrder ∧ InContract Config.hexdec.laneOrder 0x6132303030303030) ∧
    ¬ InContract .le 0x6732303030303030 := by
  have h : decodeOp (Config.instanceOf .le) 0x6132303030303030 = 42 := by decide
  refine ⟨rfl, ?_, ?_, by decide, by decide⟩ <;> rw [stepOn_evaluates] <;>
  exact congrArg (fun v => Host.Outcome.next (State.mk {} 0x6132303030303030 v)) h

theorem witness_RunIsElementByElement : (0 : Nat) ≠ 1 := by decide

/-- The same ports meet the invariant before the step. -/
theorem witness_EveryStepKeepsDoutSettled :
    Settled Config.hexdec ⟨{}, 0x6132303030303030, 42⟩ ∧
    step ⟨{}, 0x6132303030303030, 42⟩ = .next ⟨{}, 0x6132303030303030, 42⟩ ∧
    stepOn .be (ports 0x3030303030303261) = .next ⟨{}, 0x3030303030303261, 42⟩ := by
  have hLe : decodeOp (Config.instanceOf .le) 0x6132303030303030 = 42 := by decide
  have hBe : decodeOp (Config.instanceOf .be) 0x3030303030303261 = 42 := by decide
  refine ⟨by decide, (stepOn_evaluates .le _).trans ?_, (stepOn_evaluates .be _).trans ?_⟩
  · exact congrArg (fun v => Host.Outcome.next (State.mk {} 0x6132303030303030 v)) hLe
  · exact congrArg (fun v => Host.Outcome.next (State.mk {} 0x3030303030303261 v)) hBe

theorem witness_SettledOutputStays : Settled Config.hexdec ⟨{}, 0x6665656264616564, 0xDEADBEEF⟩ := by decide

/-- The ends of the three ranges of codes. -/
theorem witness_DigitCodes :
    valid 0x30 = true ∧ valid 0x39 = true ∧ valid 0x41 = true ∧ valid 0x46 = true ∧ valid 0x61 = true ∧ valid 0x66 = true := by
  decide

theorem witness_FirstCharacter : validChars two_a = true := by decide

theorem witness_ClosedForms :
    InContract Config.hexdec.laneOrder 0x4645454264616544 ∧ InContract (referenceInstance .be).laneOrder 0x4465616442454546 := by
  decide

theorem witness_CaseDoesNotMatter : validChars deadBEEF = true := by decide

theorem witness_RoundTrip :
    (validChars deadbeef = true ∧ toLower deadbeef = deadbeef) ∧ (validChars allUpper = true ∧ toUpper allUpper = allUpper) := by
  decide

theorem witness_AgreesWithAReferenceParser : validChars deadBEEF = true ∧ validChars two_g = false := by decide

theorem witness_OneCharacterOneNibble : validChars two_a = true ∧ valid 0x46 = true := by decide

/-- A byte of the list in the last lane, and a byte with bit 7 set in the first. -/
theorem witness_CornerCases :
    two_g.get 7 ∈ ([0x00, 0x20, 0x67, 0x47, 0x3A, 0x40, 0x60, 0x78, 0x2B, 0x2D] : List Byte) ∧
    ((Chars.set two_a 0 0xB9).get 0).getLsbD 7 = true := by decide

theorem witness_WrongLaneOrder : LaneOrder.be ≠ Config.hexdec.laneOrder ∧ validChars two_a = true := by decide

/-- The empty string, "2a", eight characters, and nine. -/
theorem witness_ShortStrings :
    (([] : List Byte).length ≤ 8 ∧ ([] : List Byte).all valid = true) ∧
    (([0x32, 0x61] : List Byte).length ≤ 8 ∧ ([0x32, 0x61] : List Byte).all valid = true) ∧
    (deadbeef.toList.length ≤ 8 ∧ deadbeef.toList.all valid = true) ∧ 8 < (List.replicate 9 (0x30 : Byte)).length := by decide

theorem witness_DatapathMeetsTheContract :
    InContract Config.hexdec.laneOrder 0x4139613941396139 ∧ InContract (referenceInstance .be).laneOrder 0x3961394139613941 := by
  decide

/-- Every code below 0xF6, the largest of them out of contract. -/
theorem witness_DatapathOutOfContract : ∀ L : Nat, L < 8 → lane 0xF530303030303030 L < 0xF6 := by decide

theorem witness_CorrectionIsNine : (0 : Nat) < 8 ∧ (7 : Nat) < 8 := by decide

/-- Lane 1 carries out: 0xF7, the smallest code that does so by itself. -/
theorem witness_AdditionByLanes :
    (0 : Nat) < 8 ∧ (7 : Nat) < 8 ∧
    laneCarryIn 0x303030303030F730 (correctionWord (letterBits 0x303030303030F730)) 2 = 1 := by decide

theorem witness_CorrectionStaysInItsLane :
    InContract .le 0x4630663046306630 ∧ InContract .be 0x3066304630663046 ∧ (7 : Nat) < 8 := by decide

/-- The nibbles of "deadbeef" on an LE instance. -/
theorem witness_PackingStages :
    let n (i : Fin 8) : Nibble := (⟨13, 14, 10, 13, 11, 14, 14, 15⟩ : Chars).get i |>.setWidth 4
    ∀ i : Fin 8, n i = (lane (nets .le 0x6665656264616564).v1 (laneOf .le i)).extractLsb' 0 4 := by decide

/-- "DeadBEEF" and "deadbeef" differ in case bits only. -/
theorem witness_CaseBitsAreIgnored :
    InContract .le 0x4645454264616544 ∧ InContract .le 0x6665656264616564 ∧
    (0x4645454264616544 : Operand) &&& 0x4F4F4F4F4F4F4F4F = 0x6665656264616564 &&& 0x4F4F4F4F4F4F4F4F := by decide

theorem witness_EquivalentCircuits :
    (∀ L : Nat, L < 8 → lane 0xF5F5F5F5F5F5F5F5 L < 0xF6) ∧ InContract Config.hexdec.laneOrder 0x6665656264616564 := by decide

/-- One use per clause, at the edges: taken exactly at `T_PD` and exactly when `din` stops being held; one unit too early;
one unit too late. -/
theorem witness_CallerDuties :
    let good : Use := ⟨0x6665656264616564, 5, 5⟩
    let early : Use := ⟨0x6665656264616564, 9, 4⟩
    let late : Use := ⟨0x6665656264616564, 4, 5⟩
    (5 ≤ good.takenAt ∧ good.takenAt ≤ good.heldFor) ∧ early.takenAt < 5 ∧
    (5 ≤ late.takenAt ∧ late.heldFor < late.takenAt) ∧
    (good.heldFor = (Use.mk 0x6732303030303030 5 5).heldFor ∧ good.takenAt = (Use.mk 0x6732303030303030 5 5).takenAt) := by
  decide

end Sys2Proof.Tests
end

/-! Proofs for 20_memory.md: a run of evaluations taken operand by operand (R39), and the place of each character in the
result (R31). -/

namespace Sys2Proof.Machine

/-- A step of this hardware is one evaluation of the contract (10_state.md R20). -/
theorem step_evaluates (s : State) : step s = .next (s.evaluate Config.hexdec) :=
  stepOn_evaluates Config.laneOrder s

@[simp] theorem runOperands_nil (s : State) : runOperands s [] = ([], s) := rfl

/-- A run's first step completes: its result is DECODE of the first operand, and the run goes on from the state that
step leaves. -/
@[simp] theorem runOperands_cons (s : State) (w : Operand) (ws : List Operand) :
    runOperands s (w :: ws) =
      (decodeOp Config.hexdec w :: (runOperands ((s.present w).evaluate Config.hexdec) ws).1,
        (runOperands ((s.present w).evaluate Config.hexdec) ws).2) := by
  simp only [runOperands, step_evaluates, State.evaluate_dout, State.present_din]

/-- The results of a run do not depend on the state it starts from (20_memory.md R39, (a) and (b)). -/
theorem runOperands_results (s : State) (ws : List Operand) :
    (runOperands s ws).1 = ws.map (decodeOp Config.hexdec) := by
  induction ws generalizing s with
  | nil => rfl
  | cons w ws ih => rw [runOperands_cons, ih, List.map_cons]

/-- Evaluations at two places may be done in either order (20_memory.md R39 (c)). -/
theorem evaluateAt_comm (sys : System) {j k : Nat} (v w : Operand) (hjk : j ≠ k) :
    evaluateAt j v (evaluateAt k w sys) = evaluateAt k w (evaluateAt j v sys) :=
  List.modify_modify_ne _ _ sys hjk.symm

/-- Settles O12: the results by induction on the list of operands, over every starting state; the two places of a system
by the library's commutation of `List.modify` at distinct indices. -/
theorem runIsElementByElement : Obligations.RunIsElementByElement :=
  ⟨runOperands_results, fun sys _ _ v w hjk => evaluateAt_comm sys v w hjk⟩

/-- On a string of hex digits DECODE is its numeral, whatever the instance's parameters. -/
theorem decodeOp_pack_of_valid (p : Params) (c : Chars) (hc : validChars c = true) :
    decodeOp p (pack p.laneOrder c) = numeral c := by
  rw [decodeOp_pack, if_pos hc]

/-- Nibble `i` of a string's numeral is the digit of character `i` alone. -/
theorem nibble_numeral (c : Chars) (i : Fin 8) : nibble (numeral c) i = digitValue (c.get i) :=
  nibble_joinNibbles (fun j => digitValue (c.get j)) i

/-- Settles O18: in contract the result is the string's numeral, read nibble by nibble. -/
theorem firstCharacterIsMostSignificant : Obligations.FirstCharacterIsMostSignificant := by
  intro p c hc i
  rw [decodeOp_pack_of_valid p c hc, nibble_numeral]

end Sys2Proof.Machine

/-! Proofs for 40_decode.md: what each row drives (R70), totality (R72), determinism (R75) and the frame (R76). -/

namespace Sys2Proof.Machine

/-! ### What a row and a step drive -/

/-- The result of a string of hex digits is the concatenation of its eight digit values, the first leftmost (R70). -/
theorem numeral_eq_append (c : Chars) :
    numeral c = digitValue c.c0 ++ digitValue c.c1 ++ digitValue c.c2 ++ digitValue c.c3 ++
      digitValue c.c4 ++ digitValue c.c5 ++ digitValue c.c6 ++ digitValue c.c7 := rfl

/-- Each row's next state, by whether its characters are all hex digit codes (R70). -/
theorem exec_eq_next (i : Instr) (s : State) :
    exec i s = .next { s with
      dout := if validChars i.chars = true then numeral i.chars else Config.invalidOut i.laneOrder (encode i) } :=
  (exec_drives i s).trans
    (congrArg (fun v => Host.Outcome.next (s.drive v)) (decodeOp_pack (Config.instanceOf i.laneOrder) i.chars))

/-- A step changes `dout` alone, to DECODE of the word present. -/
theorem stepOn_of_decodeOp {o : LaneOrder} {s : State} {v : Result} (hv : decodeOp (Config.instanceOf o) s.din = v) :
    stepOn o s = .next { s with dout := v } :=
  hv ▸ stepOn_evaluates o s

/-- Whatever a step leaves on `dout` is DECODE of the word that stood on `din`. -/
theorem dout_of_stepOn {o : LaneOrder} {s t : State} (h : stepOn o s = .next t) :
    t.dout = decodeOp (Config.instanceOf o) s.din := by
  rw [stepOn_evaluates] at h
  cases h
  rfl

/-- Settles O6: the two rows by `exec_eq_next`; the example by evaluating DECODE on its two words. -/
theorem decodeDrivesTheContractResult : Obligations.DecodeDrivesTheContractResult := by
  have hLe : decodeOp (Config.instanceOf .le) 0x6665656264616564 = 0xDEADBEEF := by decide
  have hBe : decodeOp (Config.instanceOf .be) 0x6465616462656566 = 0xDEADBEEF := by decide
  refine ⟨fun s c => ?_, fun s c => ?_, fun din => ⟨⟨charsOf .le din, rfl⟩, ⟨charsOf .be din, rfl⟩⟩,
    fun s => ⟨stepOn_of_decodeOp hLe, stepOn_of_decodeOp hBe⟩⟩
  · rw [← numeral_eq_append]
    exact exec_eq_next (.decode c) s
  · rw [← numeral_eq_append]
    exact exec_eq_next (.decodeBe c) s

/-- Settles O7: `exec_drives`, `stepOn_evaluates` and `step_evaluates` name the next state. -/
theorem everyEvaluationCompletes : Obligations.EveryEvaluationCompletes :=
  ⟨fun i s => ⟨_, exec_drives i s⟩, fun o s => ⟨_, stepOn_evaluates o s⟩, fun s => ⟨_, step_evaluates s⟩⟩

/-! ### The frame -/

/-- An operation that completes leaves the block's state and the operand as they were (R76). -/
theorem exec_frame {i : Instr} {s t : State} (h : exec i s = .next t) : t.block = s.block ∧ t.din = s.din := by
  rw [exec_drives] at h
  cases h
  exact ⟨State.drive_block s _, State.drive_din s _⟩

/-- An evaluation at one place leaves every other place as it was (R76). -/
theorem evaluateAt_getElem?_ne (sys : System) {k j : Nat} (w : Operand) (hjk : j ≠ k) :
    (evaluateAt k w sys)[j]? = sys[j]? :=
  List.getElem?_modify_ne _ _ hjk.symm

/-- Settles O10: the frame of an operation, and that of a place in the list of instances. -/
theorem evaluationChangesOnlyItsOwnDout : Obligations.EvaluationChangesOnlyItsOwnDout :=
  ⟨fun _ _ _ h => exec_frame h, fun sys _ _ w hjk => evaluateAt_getElem?_ne sys w hjk⟩

/-! ### Determinism -/

/-- In contract the result depends on the lane order and the word, and on no other parameter (R75). -/
theorem decodeOp_eq_of_inContract {p q : Params} {din : Operand} (hpq : p.laneOrder = q.laneOrder)
    (hdin : InContract p.laneOrder din) : decodeOp p din = decodeOp q din := by
  rw [decodeOp_of_valid p din hdin, decodeOp_of_valid q din (hpq ▸ hdin), hpq]

/-- Out of contract an instance may be built to drive any value at all (30_encoding.md R59). -/
theorem exists_decodeOp_eq_of_not_inContract {o : LaneOrder} {din : Operand} (hdin : ¬ InContract o din) (v : Result) :
    ∃ p : Params, p.laneOrder = o ∧ decodeOp p din = v :=
  ⟨⟨o, fun _ => v, 0⟩, rfl, decodeOp_of_invalid _ din (Bool.eq_false_of_not_eq_true hdin)⟩

/-- Settles O11: `dout` is a function of the parameters and `din`; in contract only the lane order counts; out of contract
an instance that drives 0 and one that drives 1 differ. -/
theorem sameOperandSameResult : Obligations.SameOperandSameResult := by
  refine ⟨fun o s t s' t' hdin hs ht => ?_, fun p s t hdin => ?_,
    fun p q din hpq hdin => decodeOp_eq_of_inContract hpq hdin, fun o din hdin => ?_⟩
  · rw [dout_of_stepOn hs, dout_of_stepOn ht, hdin]
  · rw [State.evaluate_dout, State.evaluate_dout, hdin]
  · obtain ⟨p, hpo, hp⟩ := exists_decodeOp_eq_of_not_inContract hdin 0
    obtain ⟨q, hqo, hq⟩ := exists_decodeOp_eq_of_not_inContract hdin 1
    refine ⟨p, q, hpo, hqo, ?_⟩
    rw [hp, hq]
    decide

end Sys2Proof.Machine

/-! Proofs for 60_exceptions.md: no exception and no refusal (R130, R135). -/

namespace Sys2Proof.Machine

/-- The list of exception causes is empty (R130). -/
theorem no_fault (f : Fault) : False := nomatch f

/-- A step ends in no fault, since it always names a next state (R130). -/
theorem stepOn_ne_fault (o : LaneOrder) (s : State) (f : Fault) : stepOn o s ≠ .fault f := by
  rw [stepOn_evaluates]
  nofun

/-- A step is never refused, out of contract no more than in it (R135). -/
theorem stepOn_ne_refused (o : LaneOrder) (s : State) (r : Refusal) : stepOn o s ≠ .refused r := by
  rw [stepOn_evaluates]
  nofun

/-- Settles O8: the type of faults has no constructor, and a step's outcome is the next state of `stepOn_evaluates`. -/
theorem noExceptionForAnyOperand : Obligations.NoExceptionForAnyOperand :=
  ⟨no_fault, fun o s => ⟨stepOn_ne_fault o s, stepOn_ne_refused o s⟩⟩

end Sys2Proof.Machine

/-! Proofs for 30_encoding.md and 42_boundary_and_absent_classes.md R120: `pack` and the field extraction are inverse, so
the decoder and the encoder are; and what the decoder does with a byte list of any length. -/

namespace Sys2Proof

/-! ### The decoder and the encoder -/

/-- An operation is of an instance's one row exactly when the lane orders agree (R57). -/
theorem Instr.wf_iff (o : LaneOrder) (i : Instr) : i.wf o = true ↔ i.laneOrder = o := decide_eq_true_iff

@[simp] theorem laneOrder_decodeWord (o : LaneOrder) (w : Operand) : (decodeWord o w).laneOrder = o := by
  cases o <;> rfl

theorem chars_decodeWord (o : LaneOrder) (w : Operand) : (decodeWord o w).chars = charsOf o w := by
  cases o <;> rfl

/-- An operation is read back from its word: field extraction undoes `pack` (R120). -/
theorem decodeWord_encode (i : Instr) : decodeWord i.laneOrder (encode i) = i := by
  cases i with
  | decode c => exact congrArg Instr.decode (charsOf_pack .le c)
  | decodeBe c => exact congrArg Instr.decodeBe (charsOf_pack .be c)

/-- A word is the word of the operation it selects: `pack` undoes field extraction (R120). -/
theorem encode_decodeWord (o : LaneOrder) (w : Operand) : encode (decodeWord o w) = w := by
  rw [encode, laneOrder_decodeWord, chars_decodeWord, pack_charsOf]

/-- The byte decoder on the bytes of a word is the word decoder. -/
theorem decodeBytes_lanesOf (o : LaneOrder) (w : Operand) : decodeBytes o (lanesOf w) = .ok (decodeWord o w) :=
  congrArg (fun v => Except.ok (decodeWord o v)) (pack_le_charsOf_le w)

/-- Settles O2: the lane order of a well-formed operation is the instance's, and `decodeWord_encode` reads it back. -/
theorem decodeOfEncodeIsTheOperation : Obligations.DecodeOfEncodeIsTheOperation := by
  intro o i hwf
  obtain rfl := (i.wf_iff o).mp hwf
  exact ⟨decodeWord_encode i, by rw [decodeBytes_lanesOf, decodeWord_encode]⟩

/-! ### The table decoder -/

/-- Up to 64 bits the table decoder reads the row's word as this hardware's instance does. -/
theorem decodeTableWord_of_le {nbits : Nat} (hbits : nbits ≤ 64) (w : Nat) :
    decodeTableWord nbits w = some (decodeWord .le (tableWord nbits w)) := by
  rw [decodeTableWord, if_pos hbits, decodeBytes_lanesOf]
  rfl

/-- A row of more than 64 bits is no word of the port (R50). -/
theorem decodeTableWord_of_gt {nbits : Nat} (hbits : 64 < nbits) (w : Nat) : decodeTableWord nbits w = none :=
  if_neg (Nat.not_le.mpr hbits)

/-- A number that fits the row's bits is the number of its word. -/
theorem toNat_tableWord {nbits w : Nat} (hbits : nbits ≤ 64) (hw : w < 2 ^ nbits) : (tableWord nbits w).toNat = w := by
  have hword : w < 2 ^ 64 := hw.trans_le (Nat.pow_le_pow_right (by decide) hbits)
  rw [tableWord, BitVec.toNat_ofNat, Nat.mod_eq_of_lt hw, Nat.mod_eq_of_lt hword]

/-- Settles O3: the operation of a word is the one it selects, unique since an operation is read back from its word. -/
theorem everyWordIsOneOperation : Obligations.EveryWordIsOneOperation := by
  refine ⟨fun o din => ⟨decodeWord o din, ⟨?_, encode_decodeWord o din⟩, fun j hwf hj => ?_⟩,
    fun nbits w hbits hw => ⟨charsOf .le (tableWord nbits w), decodeTableWord_of_le hbits w, ?_⟩,
    fun nbits w hbits => decodeTableWord_of_gt hbits w⟩
  · exact (Instr.wf_iff o _).mpr (laneOrder_decodeWord o din)
  · obtain rfl := (j.wf_iff o).mp hwf
    rw [← hj, decodeWord_encode]
  · exact (congrArg BitVec.toNat (encode_decodeWord .le (tableWord nbits w))).trans (toNat_tableWord hbits hw)

/-- Settles O1: each word is cut into its characters by evaluation. -/
theorem writtenWordsDecode : Obligations.WrittenWordsDecode := by
  refine ⟨?_, ?_, ?_, ?_, ?_⟩ <;> decide

/-! ### Byte lists of every length -/

/-- A list of eight bytes is the characters of a string. -/
theorem exists_chars_of_length_eq {bs : List Byte} (hlen : bs.length = 8) : ∃ c : Chars, c.toList = bs := by
  match bs, hlen with
  | [b0, b1, b2, b3, b4, b5, b6, b7], _ => exact ⟨⟨b0, b1, b2, b3, b4, b5, b6, b7⟩, rfl⟩

/-- Eight bytes, lane 0 first, are an operand. -/
theorem decodeBytes_toList (o : LaneOrder) (c : Chars) : decodeBytes o c.toList = .ok (decodeWord o (pack .le c)) := rfl

/-- Any other number of bytes is rejected, by whether it is too small (R36). -/
theorem decodeBytes_of_length_ne {bs : List Byte} (hlen : bs.length ≠ 8) (o : LaneOrder) :
    decodeBytes o bs = if bs.length < 8 then .error .operandTooShort else .error .operandTooLong := by
  unfold decodeBytes
  split
  · exact absurd rfl hlen
  · rfl

/-- Settles O4: by the number of bytes. -/
theorem otherLengthsAreRejectedByName : Obligations.OtherLengthsAreRejectedByName := by
  intro o bs
  refine ⟨fun hlt => ?_, fun hgt => ?_, fun heq => ?_⟩
  · rw [decodeBytes_of_length_ne hlt.ne, if_pos hlt]
  · rw [decodeBytes_of_length_ne hgt.ne', if_neg (Nat.lt_asymm hgt)]
  · obtain ⟨c, rfl⟩ := exists_chars_of_length_eq heq
    exact ⟨_, decodeBytes_toList o c, (Instr.wf_iff o _).mpr (laneOrder_decodeWord o _)⟩

/-! ### Replacing a character -/

theorem Chars.get_set (c : Chars) (i : Fin 8) (b : Byte) (j : Fin 8) :
    (c.set i b).get j = if j = i then b else c.get j :=
  Chars.get_ofFn _ j

end Sys2Proof

/-! Proofs for 10_state.md, 70_reset_and_hazards.md and 20_memory.md R40: what a step runs, the invariant that `dout`
shows DECODE of the present `din`, and the isolation of instances. -/

namespace Sys2Proof.Machine

/-! ### What a step runs -/

/-- A row that the table decoder reads is the operation its word selects. -/
theorem decodeTableWord_eq_some {nbits w : Nat} {i : Instr} (h : decodeTableWord nbits w = some i) :
    decodeWord .le (tableWord nbits w) = i := by
  rcases Nat.lt_or_ge 64 nbits with hlong | hfits
  · rw [decodeTableWord_of_gt hlong] at h
    cases h
  · rw [decodeTableWord_of_le hfits] at h
    exact Option.some.inj h

/-- Settles O5: `step` and `stepOn` are `exec` of the word present by definition; a placed word is the one present. -/
theorem stepRunsTheDecodedOperation : Obligations.StepRunsTheDecodedOperation := by
  refine ⟨fun _ => rfl, fun _ _ => rfl, fun s nbits w i hi => ?_,
    fun s nbits w => ⟨State.withFetchWord_block s nbits w, State.withFetchWord_dout s nbits w⟩⟩
  exact congrArg (fun j => exec j (s.withFetchWord nbits w)) (decodeTableWord_eq_some hi)

/-- Settles O9: out of contract, DECODE of the word present is `INVALID_OUT` of it. -/
theorem outOfContractWordDrivesInvalidOut : Obligations.OutOfContractWordDrivesInvalidOut :=
  fun o s hdin => stepOn_of_decodeOp (decodeOp_of_invalid (Config.instanceOf o) s.din hdin)

/-! ### The invariant -/

/-- A step leaves the operand as it was. -/
theorem din_of_stepOn {o : LaneOrder} {s t : State} (h : stepOn o s = .next t) : t.din = s.din :=
  (exec_frame h).2

/-- A step of either instance settles `dout`, from any state. -/
theorem settled_of_stepOn {o : LaneOrder} {s t : State} (h : stepOn o s = .next t) :
    Settled (Config.instanceOf o) t := by
  rw [Settled, dout_of_stepOn h, din_of_stepOn h]

/-- Settles O14: a step settles `dout` from any state, so from a settled one too. -/
theorem everyStepKeepsDoutSettled : Obligations.EveryStepKeepsDoutSettled :=
  ⟨fun _ _ _ h => settled_of_stepOn h, fun _ _ _ h => ⟨settled_of_stepOn h, din_of_stepOn h⟩⟩

/-- Settles O15: `State.reset` drives `dout` with DECODE of its own `din`. -/
theorem powerUpIsSettled : Obligations.PowerUpIsSettled := rfl

/-- A step from a settled state answers that state: it drives what `dout` shows already. -/
theorem step_of_settled {s : State} (hs : Settled Config.hexdec s) : step s = .next s := by
  rw [step_evaluates]
  exact congrArg (fun v => Host.Outcome.next { s with dout := v }) hs.symm

/-- Settles O16: by induction on the number of steps, each of which answers the same state. -/
theorem settledOutputStays : Obligations.SettledOutputStays := by
  intro k s hs
  induction k with
  | zero => rfl
  | succ k ih =>
    have hstep : Sys2Proof.core.step s = .next s := step_of_settled hs
    simpa only [Host.Core.run, hstep] using ih

/-! ### Isolation -/

/-- What an evaluation leaves at a place depends on what stood at that place alone. -/
theorem evaluateAt_getElem?_congr {sys sys' : System} {k : Nat} (hk : sys[k]? = sys'[k]?) (j : Nat) (w : Operand) :
    (evaluateAt j w sys)[k]? = (evaluateAt j w sys')[k]? := by
  simp only [evaluateAt, List.getElem?_modify, hk]

/-- Two systems that agree at place `k` still do when one is given a schedule and the other its evaluations at `k` alone. -/
theorem evaluateAll_getElem?_filter {sys sys' : System} {k : Nat} (hk : sys[k]? = sys'[k]?)
    (sched : List (Nat × Operand)) :
    (evaluateAll sys sched)[k]? = (evaluateAll sys' (sched.filter fun e => e.1 == k))[k]? := by
  induction sched generalizing sys sys' with
  | nil => exact hk
  | cons e sched ih =>
    by_cases he : e.1 = k
    · rw [List.filter_cons_of_pos (by simpa using he)]
      exact ih (evaluateAt_getElem?_congr hk e.1 e.2)
    · rw [List.filter_cons_of_neg (by simpa using he)]
      exact ih ((evaluateAt_getElem?_ne sys e.2 (Ne.symm he)).trans hk)

/-- Settles O13: the same system on both sides of `evaluateAll_getElem?_filter`. -/
theorem instancesNeverInteract : Obligations.InstancesNeverInteract :=
  fun _ sched _ => evaluateAll_getElem?_filter rfl sched

/-! ### The caller's duties of time -/

theorem Use.dutiful_iff (tPd : Nat) (u : Use) : u.dutiful tPd = true ↔ tPd ≤ u.takenAt ∧ u.takenAt ≤ u.heldFor := by
  rw [Use.dutiful, Bool.and_eq_true, decide_eq_true_iff, decide_eq_true_iff]

/-- A dutiful use settles `dout` on its operand (R154, R155). -/
theorem takeResult_of_dutiful {tPd : Nat} {u : Use} (hu : u.dutiful tPd = true) (s : State) :
    takeResult tPd u s = .next { s with din := u.operand, dout := decodeOp Config.hexdec u.operand } := by
  obtain ⟨hSettled, hHeld⟩ := (Use.dutiful_iff tPd u).mp hu
  rcases takeResult_cases tPd u s with ⟨hEarly, -⟩ | ⟨-, hChanged, -⟩ | ⟨-, hstep⟩
  · omega
  · omega
  · rw [hstep, step_evaluates]
    rfl

/-- A use is answered with a next state exactly when it is dutiful. -/
theorem takeResult_completes_iff (tPd : Nat) (u : Use) (s : State) :
    (∃ t : State, takeResult tPd u s = .next t) ↔ u.dutiful tPd = true := by
  refine ⟨fun ⟨t, ht⟩ => ?_, fun hu => ⟨_, takeResult_of_dutiful hu s⟩⟩
  rcases takeResult_cases tPd u s with ⟨-, hRefused⟩ | ⟨-, -, hRefused⟩ | ⟨hu, -⟩
  · rw [hRefused] at ht
    cases ht
  · rw [hRefused] at ht
    cases ht
  · exact hu

/-- Settles O38: the three cases of `takeResult_cases`, told apart by the two times; being dutiful reads no operand. -/
theorem callerDutiesOfTime : Obligations.CallerDutiesOfTime := by
  refine ⟨fun tPd u s hSettled hHeld => takeResult_of_dutiful ((Use.dutiful_iff tPd u).mpr ⟨hSettled, hHeld⟩) s,
    fun tPd u s hEarly => if_pos hEarly, fun tPd u s hSettled hChanged => ?_, fun tPd u v s hheld htaken => ?_⟩
  · exact (if_neg (Nat.not_lt.mpr hSettled)).trans (if_pos hChanged)
  · rw [takeResult_completes_iff, takeResult_completes_iff, Use.dutiful_iff, Use.dutiful_iff, hheld, htaken]

end Sys2Proof.Machine

/-! Proofs for 30_encoding.md R52 to R56 and 40_decode.md R71 to R79: the digit codes, and the value of DECODE on a string
of hex digits, nibble by nibble and as a number. -/

namespace Sys2Proof.Machine

/-! ### One code -/

/-- The in-contract codes and their values (R52 to R55), by going through the 256 codes. -/
theorem valid_iff_mem_codeTable (c : Byte) : valid c = true ↔ (c, digitValue c) ∈ ([
    (0x30, 0), (0x31, 1), (0x32, 2), (0x33, 3), (0x34, 4), (0x35, 5), (0x36, 6), (0x37, 7), (0x38, 8), (0x39, 9),
    (0x41, 10), (0x42, 11), (0x43, 12), (0x44, 13), (0x45, 14), (0x46, 15),
    (0x61, 10), (0x62, 11), (0x63, 12), (0x64, 13), (0x65, 14), (0x66, 15)] : List (Byte × Nibble)) := by
  revert c
  decide

/-- On a digit code `c[3:0] + 9 * c[6]` does not reach 16 (R55). -/
theorem digitValue_toNat_of_valid {c : Byte} (hc : valid c = true) :
    (digitValue c).toNat = (c.extractLsb' 0 4).toNat + 9 * (c.getLsbD 6).toNat := by
  revert c
  decide

theorem getLsbD_seven_of_valid {c : Byte} (hc : valid c = true) : c.getLsbD 7 = false := by
  revert c
  decide

theorem getLsbD_four_of_valid {c : Byte} (hc : valid c = true) : c.getLsbD 4 = !(c.getLsbD 6) := by
  revert c
  decide

/-- Settles O17: the code table and the three facts about its codes. -/
theorem digitCodesAndValues : Obligations.DigitCodesAndValues :=
  ⟨valid_iff_mem_codeTable, fun _ hc =>
    ⟨digitValue_toNat_of_valid hc, getLsbD_seven_of_valid hc, getLsbD_four_of_valid hc⟩⟩

/-- Nine times a bit is that bit at places 3 and 0. -/
theorem nine_mul_bit (b : BitVec 1) : 9#4 * b.setWidth 4 = b ++ 0#2 ++ b := by
  revert b
  decide

/-- The product of R55 is the adder of 41_datapath.md R110, on every code. -/
theorem digitValue_eq_laneDigit (c : Byte) : digitValue c = laneDigit c :=
  congrArg (c.extractLsb' 0 4 + ·) (nine_mul_bit _)

/-! ### A string by its nibbles -/

theorem validWord_pack (o : LaneOrder) (c : Chars) : validWord o (pack o c) = validChars c :=
  congrArg validChars (charsOf_pack o c)

theorem validChars_ofFn_iff (f : Fin 8 → Byte) : validChars (Chars.ofFn f) = true ↔ ∀ i, valid (f i) = true := by
  simp only [validChars_iff, Chars.get_ofFn]

/-- Nibble `i` of the result of a string of hex digits is the value of character `i`. -/
theorem nibble_decodeOp_pack (p : Params) {c : Chars} (hc : validChars c = true) (i : Fin 8) :
    nibble (decodeOp p (pack p.laneOrder c)) i = digitValue (c.get i) := by
  rw [decodeOp_pack_of_valid p c hc, nibble_numeral]

/-- A string's numeral is the number whose nibbles are the values of its characters. -/
theorem numeral_eq_of_nibbles {c : Chars} {v : Result} (h : ∀ i, digitValue (c.get i) = nibble v i) : numeral c = v :=
  eq_of_nibbles _ _ fun i => (nibble_numeral c i).trans (h i)

/-- Strings whose characters have the same values have the same numeral. -/
theorem numeral_congr {c d : Chars} (h : ∀ i, digitValue (c.get i) = digitValue (d.get i)) : numeral c = numeral d :=
  numeral_eq_of_nibbles fun i => (h i).trans (nibble_numeral d i).symm

/-- Putting a hex digit in a string of hex digits keeps it one. -/
theorem validChars_set {c : Chars} (hc : validChars c = true) (i : Fin 8) {b : Byte} (hb : valid b = true) :
    validChars (c.set i b) = true := by
  rw [validChars_iff] at hc ⊢
  intro j
  rw [Chars.get_set]
  split
  · exact hb
  · exact hc j

/-- Settles O23: both results are read nibble by nibble, and the strings differ at position `i` only. -/
theorem oneCharacterOneNibble : Obligations.OneCharacterOneNibble := by
  intro p c i b hc hb j
  rw [nibble_decodeOp_pack p (validChars_set hc i hb), nibble_decodeOp_pack p hc, Chars.get_set, apply_ite digitValue]

/-! ### A string as a number -/

theorem toNat_append_nibble {n : Nat} (x : BitVec n) (d : Nibble) : (x ++ d).toNat = 16 * x.toNat + d.toNat := by
  rw [BitVec.toNat_append, ← Nat.shiftLeft_add_eq_or_of_lt d.isLt, Nat.shiftLeft_eq, Nat.mul_comm]

/-- The number a list of hex digits spells, most significant first, going on from `acc`: Horner's form of the sum of R71. -/
def hexValueFrom (acc : Nat) (s : List Byte) : Nat := s.foldl (fun a c => 16 * a + (digitValue c).toNat) acc

@[simp] theorem hexValueFrom_nil (acc : Nat) : hexValueFrom acc [] = acc := rfl

@[simp] theorem hexValueFrom_cons (acc : Nat) (c : Byte) (cs : List Byte) :
    hexValueFrom acc (c :: cs) = hexValueFrom (16 * acc + (digitValue c).toNat) cs := rfl

/-- Leading digits '0' do not count. -/
theorem hexValueFrom_zeros_append (k : Nat) (s : List Byte) :
    hexValueFrom 0 (List.replicate k 0x30#8 ++ s) = hexValueFrom 0 s := by
  induction k with
  | zero => rfl
  | succ k ih => exact ih

/-- The numeral of a string is the number its characters spell. -/
theorem toNat_numeral (c : Chars) : (numeral c).toNat = hexValueFrom 0 c.toList := by
  simp only [numeral, joinNibbles, toNat_append_nibble, Chars.toList, hexValueFrom_cons, hexValueFrom_nil, Nat.mul_zero,
    Nat.zero_add]

/-- The number a string spells, as a sum over its positions (R71). -/
theorem hexValueFrom_toList (c : Chars) :
    hexValueFrom 0 c.toList = ∑ i : Fin 8, (digitValue (c.get i)).toNat * 16 ^ (7 - i.val) := by
  simp only [Fin.sum_univ_eight, Chars.toList, hexValueFrom_cons, hexValueFrom_nil, Chars.get]
  norm_num
  ring

/-- Settles O19: in contract the result is the numeral of the word's characters, whose nibbles and number are known. -/
theorem closedFormsOfTheResult : Obligations.ClosedFormsOfTheResult := by
  intro p din hdin
  rw [decodeOp_of_valid p din hdin]
  refine ⟨by rw [toNat_numeral, hexValueFrom_toList], fun i => ⟨nibble_numeral _ i, ?_⟩⟩
  rw [nibble_numeral, digitValue_eq_laneDigit]

/-! ### The reference parser -/

/-- The table of digits finds a hex digit, of either case, at its value, and finds nothing else. -/
theorem idxOf?_hexDigits_lowerByte (c : Byte) :
    hexDigits.idxOf? (lowerByte c) = if valid c = true then some (digitValue c).toNat else none := by
  revert c
  decide

/-- The parser answers the number a list of hex digits spells, and refuses any other list. -/
theorem hexParseFrom_eq (acc : Nat) (s : List Byte) :
    hexParseFrom acc s = if s.all valid = true then some (hexValueFrom acc s) else none := by
  induction s generalizing acc with
  | nil => rfl
  | cons c cs ih =>
    rw [hexParseFrom, idxOf?_hexDigits_lowerByte]
    by_cases hc : valid c = true
    · simp [hc, ih]
    · simp [hc]

theorem hexParse_of_valid {s : List Byte} (hs : s.all valid = true) : hexParse s = some (hexValueFrom 0 s) :=
  (hexParseFrom_eq 0 s).trans (if_pos hs)

theorem hexParse_of_invalid {s : List Byte} (hs : s.all valid = false) : hexParse s = none :=
  (hexParseFrom_eq 0 s).trans (if_neg (ne_true_of_eq_false hs))

/-- Settles O22: the parser and the numeral both give the number the characters spell. -/
theorem agreesWithAReferenceParser : Obligations.AgreesWithAReferenceParser := by
  refine fun p c => ⟨fun hc => ?_, fun hc => hexParse_of_invalid hc⟩
  rw [decodeOp_pack_of_valid p c hc, toNat_numeral]
  exact hexParse_of_valid hc

/-! ### Padding -/

/-- A string whose characters are the padded list is what padding gives. -/
theorem padLeft_eq_some {s : List Byte} {c : Chars} (hc : c.toList = List.replicate (8 - s.length) 0x30#8 ++ s) :
    padLeft s = some c := by
  rw [padLeft, ← hc]
  rfl

theorem exists_padLeft {s : List Byte} (hlen : s.length ≤ 8) :
    ∃ c : Chars, padLeft s = some c ∧ c.toList = List.replicate (8 - s.length) 0x30#8 ++ s := by
  obtain ⟨c, hc⟩ := exists_chars_of_length_eq (bs := List.replicate (8 - s.length) 0x30#8 ++ s) (by simp; omega)
  exact ⟨c, padLeft_eq_some hc, hc⟩

/-- A longer list has no operand. -/
theorem padLeft_eq_none {s : List Byte} (hlen : 8 < s.length) : padLeft s = none := by
  unfold padLeft
  split
  next h =>
    have hpadded := congrArg List.length h
    simp only [List.length_append, List.length_replicate, List.length_cons, List.length_nil] at hpadded
    omega
  next => rfl

/-- Settles O27: the padded string is in contract, and its leading digits '0' do not count. -/
theorem shortStringsArePaddedWithZeroDigits : Obligations.ShortStringsArePaddedWithZeroDigits := by
  refine ⟨fun p s hlen hs => ?_, fun s hlen => padLeft_eq_none hlen, by decide⟩
  obtain ⟨c, hpad, hchars⟩ := exists_padLeft hlen
  have hzero : valid 0x30#8 = true := by decide
  have hc : validChars c = true := by
    rw [validChars, hchars, List.all_append, hs, List.all_replicate, hzero]
    simp
  refine ⟨c, hpad, (validWord_pack _ c).trans hc, ?_⟩
  rw [hexParse_of_valid hs, decodeOp_pack_of_valid p c hc, toNat_numeral, hchars, hexValueFrom_zeros_append]

/-! ### The case of letters -/

theorem valid_upperByte (c : Byte) : valid (upperByte c) = valid c := by
  revert c
  decide

theorem valid_lowerByte (c : Byte) : valid (lowerByte c) = valid c := by
  revert c
  decide

/-- Upper case changes bit 5 of a letter, which `val` does not read. -/
theorem digitValue_upperByte (c : Byte) : digitValue (upperByte c) = digitValue c := by
  revert c
  decide

theorem digitValue_lowerByte (c : Byte) : digitValue (lowerByte c) = digitValue c := by
  revert c
  decide

theorem validChars_withCase (upper : Fin 8 → Bool) {c : Chars} (hc : validChars c = true) :
    validChars (withCase upper c) = true := by
  refine (validChars_ofFn_iff _).mpr fun i => ?_
  have hi := (validChars_iff c).mp hc i
  split
  · rwa [valid_upperByte]
  · rwa [valid_lowerByte]

theorem numeral_withCase (upper : Fin 8 → Bool) (c : Chars) : numeral (withCase upper c) = numeral c := by
  refine numeral_congr fun i => ?_
  rw [withCase, Chars.get_ofFn]
  split
  · exact digitValue_upperByte _
  · exact digitValue_lowerByte _

/-- DECODE does not read the case of any letter (R73). -/
theorem decodeOp_pack_withCase (p : Params) (upper : Fin 8 → Bool) {c : Chars} (hc : validChars c = true) :
    decodeOp p (pack p.laneOrder (withCase upper c)) = decodeOp p (pack p.laneOrder c) := by
  rw [decodeOp_pack_of_valid p _ (validChars_withCase upper hc), numeral_withCase, decodeOp_pack_of_valid p c hc]

/-- Settles O20: all upper case and all lower case are two of the mixtures. -/
theorem caseDoesNotMatter : Obligations.CaseDoesNotMatter :=
  fun p _ hc => ⟨decodeOp_pack_withCase p (fun _ => true) hc, decodeOp_pack_withCase p (fun _ => false) hc,
    fun upper => decodeOp_pack_withCase p upper hc⟩

/-! ### Hex text -/

theorem valid_digitLower (n : Nibble) : valid (digitLower n) = true := by
  revert n
  decide

theorem valid_digitUpper (n : Nibble) : valid (digitUpper n) = true := by
  revert n
  decide

theorem digitValue_digitLower (n : Nibble) : digitValue (digitLower n) = n := by
  revert n
  decide

theorem digitValue_digitUpper (n : Nibble) : digitValue (digitUpper n) = n := by
  revert n
  decide

/-- The lower-case digit of a digit's value is the digit in lower case. -/
theorem digitLower_digitValue {c : Byte} (hc : valid c = true) : digitLower (digitValue c) = lowerByte c := by
  revert c
  decide

theorem digitUpper_digitValue {c : Byte} (hc : valid c = true) : digitUpper (digitValue c) = upperByte c := by
  revert c
  decide

theorem validChars_toHexLower (n : Result) : validChars (toHexLower n) = true :=
  (validChars_ofFn_iff _).mpr fun _ => valid_digitLower _

theorem validChars_toHexUpper (n : Result) : validChars (toHexUpper n) = true :=
  (validChars_ofFn_iff _).mpr fun _ => valid_digitUpper _

theorem numeral_toHexLower (n : Result) : numeral (toHexLower n) = n :=
  numeral_eq_of_nibbles fun i => by rw [toHexLower, Chars.get_ofFn, digitValue_digitLower]

theorem numeral_toHexUpper (n : Result) : numeral (toHexUpper n) = n :=
  numeral_eq_of_nibbles fun i => by rw [toHexUpper, Chars.get_ofFn, digitValue_digitUpper]

/-- The text of the numeral of a string of hex digits is the string in lower case (R74). -/
theorem toHexLower_numeral {c : Chars} (hc : validChars c = true) : toHexLower (numeral c) = toLower c :=
  Chars.ext_get _ _ fun i => by
    rw [toHexLower, toLower, Chars.get_ofFn, Chars.get_ofFn, nibble_numeral,
      digitLower_digitValue ((validChars_iff c).mp hc i)]

theorem toHexUpper_numeral {c : Chars} (hc : validChars c = true) : toHexUpper (numeral c) = toUpper c :=
  Chars.ext_get _ _ fun i => by
    rw [toHexUpper, toUpper, Chars.get_ofFn, Chars.get_ofFn, nibble_numeral,
      digitUpper_digitValue ((validChars_iff c).mp hc i)]

/-- Lower-case text is in lower case: it is the text of its own numeral. -/
theorem toLower_toHexLower (n : Result) : toLower (toHexLower n) = toHexLower n := by
  rw [← toHexLower_numeral (validChars_toHexLower n), numeral_toHexLower]

theorem toUpper_toHexUpper (n : Result) : toUpper (toHexUpper n) = toHexUpper n := by
  rw [← toHexUpper_numeral (validChars_toHexUpper n), numeral_toHexUpper]

/-- DECODE recovers a number from its lower-case text. -/
theorem decodeOp_toHexLower (p : Params) (n : Result) : decodeOp p (pack p.laneOrder (toHexLower n)) = n :=
  (decodeOp_pack_of_valid p _ (validChars_toHexLower n)).trans (numeral_toHexLower n)

theorem decodeOp_toHexUpper (p : Params) (n : Result) : decodeOp p (pack p.laneOrder (toHexUpper n)) = n :=
  (decodeOp_pack_of_valid p _ (validChars_toHexUpper n)).trans (numeral_toHexUpper n)

/-- Settles O21: the numeral of a number's text is the number, and the text of a string's numeral is the string in that
case; a word of every value is that of its lower-case text. -/
theorem roundTripThroughHexText : Obligations.RoundTripThroughHexText := by
  refine fun p => ⟨fun n => ⟨decodeOp_toHexLower p n, decodeOp_toHexUpper p n⟩, fun n => ?_, fun n => ?_,
    fun c hc hlower => ?_, fun c hc hupper => ?_⟩
  · exact ⟨pack p.laneOrder (toHexLower n), (validWord_pack _ _).trans (validChars_toHexLower n), decodeOp_toHexLower p n⟩
  · exact ⟨validChars_toHexLower n, toLower_toHexLower n, validChars_toHexUpper n, toUpper_toHexUpper n⟩
  · rw [decodeOp_pack_of_valid p c hc, toHexLower_numeral hc, hlower]
  · rw [decodeOp_pack_of_valid p c hc, toHexUpper_numeral hc, hupper]

/-! ### Corner cases -/

/-- A byte of R79's list is no hex digit code. -/
theorem not_valid_of_mem_nonDigits {b : Byte}
    (hb : b ∈ ([0x00, 0x20, 0x67, 0x47, 0x3A, 0x40, 0x60, 0x78, 0x2B, 0x2D] : List Byte)) : valid b ≠ true := by
  revert b
  decide

/-- A string with a character that is no hex digit is out of contract, and drives `INVALID_OUT` of its word. -/
theorem decodeOp_pack_of_not_valid (p : Params) {c : Chars} {i : Fin 8} (hi : valid (c.get i) ≠ true) :
    decodeOp p (pack p.laneOrder c) = p.invalidOut (pack p.laneOrder c) := by
  rw [decodeOp_pack, if_neg fun hc => hi ((validChars_iff c).mp hc i)]

/-- Settles O24: each row of the table by evaluating its numeral; a byte of the list or with bit 7 set is no digit. -/
theorem cornerCasesOfDecode : Obligations.CornerCasesOfDecode := by
  refine fun p => ⟨fun e he => ?_, fun c i hi => decodeOp_pack_of_not_valid p (i := i) ?_⟩
  · have hrow : validChars e.1 = true ∧ numeral e.1 = e.2 := by
      revert e
      decide
    rw [decodeOp_pack_of_valid p e.1 hrow.1, hrow.2]
  · rcases hi with hmem | hbit
    · exact not_valid_of_mem_nonDigits hmem
    · exact fun hvalid => Bool.false_ne_true ((getLsbD_seven_of_valid hvalid).symm.trans hbit)

/-! ### The other lane order -/

/-- A string laid out in the other order is the reversed string laid out in this one (20_memory.md R34). -/
theorem pack_of_ne {o q : LaneOrder} (hq : q ≠ o) (c : Chars) : pack q c = pack o c.reverse := by
  cases o <;> cases q
  · exact absurd rfl hq
  · exact pack_be_reverse c
  · exact pack_be_reverse c.reverse
  · exact absurd rfl hq

theorem validChars_reverse (c : Chars) : validChars c.reverse = validChars c :=
  List.all_reverse (l := c.toList)

/-- Settles O25: `pack_of_ne`; the example by evaluating DECODE of its word. -/
theorem wrongLaneOrderReversesTheString : Obligations.WrongLaneOrderReversesTheString := by
  refine ⟨fun p q c hq hc => ?_, fun s => ?_⟩
  · have hreverse : validChars c.reverse = true := (validChars_reverse c).trans hc
    rw [pack_of_ne hq]
    exact ⟨(validWord_pack _ _).trans hreverse, rfl, decodeOp_pack_of_valid p _ hreverse⟩
  · have hword : pack .be ⟨0x30, 0x30, 0x30, 0x30, 0x30, 0x30, 0x32, 0x61⟩ = 0x3030303030303261 := by decide
    have hvalue : decodeOp Config.hexdec 0x3030303030303261 = 0xA2000000 := by decide
    rw [hword]
    exact stepOn_of_decodeOp hvalue

/-! ### How many words are in contract -/

/-- A word of an instance is a choice of a code for each position. -/
def wordEquiv (o : LaneOrder) : Operand ≃ (Fin 8 → Byte) where
  toFun w := (charsOf o w).get
  invFun f := pack o (Chars.ofFn f)
  left_inv w := (congrArg (pack o) (Chars.ext_get _ _ (Chars.get_ofFn _))).trans (pack_charsOf o w)
  right_inv f := funext fun i => (congrArg (Chars.get · i) (charsOf_pack o _)).trans (Chars.get_ofFn f i)

/-- There are 22 digit codes. -/
theorem card_valid : Nat.card { c : Byte // valid c = true } = 22 := by
  rw [Nat.card_eq_fintype_card]
  decide

/-- The in-contract words are the choices of a digit code for each position (30_encoding.md R56). -/
theorem card_validWord (o : LaneOrder) : Nat.card { din : Operand // validWord o din = true } = 22 ^ 8 :=
  calc Nat.card { din : Operand // validWord o din = true }
      = Nat.card { f : Fin 8 → Byte // ∀ i, valid (f i) = true } :=
        Nat.card_congr ((wordEquiv o).subtypeEquiv fun din => validChars_iff (charsOf o din))
    _ = Nat.card (Fin 8 → { c : Byte // valid c = true }) := Nat.card_congr (Equiv.subtypePiEquivPi (p := fun _ c => valid c = true))
    _ = 22 ^ 8 := by rw [Nat.card_fun, card_valid, Nat.card_eq_fintype_card, Fintype.card_fin]

theorem card_operand : Nat.card Operand = 2 ^ 64 := by
  rw [Nat.card_congr BitVec.equivFin.toEquiv, Nat.card_eq_fintype_card, Fintype.card_fin]

/-- Every word is in contract or not, so the two counts make 2^64 (30_encoding.md R58). -/
theorem card_validWord_add_card_not (o : LaneOrder) :
    Nat.card { din : Operand // validWord o din = true } + Nat.card { din : Operand // validWord o din = false } =
      2 ^ 64 := by
  have hsplit : Nat.card { din : Operand // validWord o din = false } =
      Nat.card { din : Operand // ¬ validWord o din = true } := by
    simp only [Bool.not_eq_true]
  rw [hsplit, ← Nat.card_sum, Nat.card_congr (Equiv.sumCompl _), card_operand]

/-- Settles O26: 22^8 by `card_validWord`, and the rest of the 2^64. -/
theorem countOfInContractWords : Obligations.CountOfInContractWords := by
  intro o
  have hall := card_validWord_add_card_not o
  rw [card_validWord] at hall
  exact ⟨card_validWord o, by omega⟩

end Sys2Proof.Machine

/-! Proofs for 41_datapath.md: lane by lane, the letter bits and the correction word (R91, R92), the 64-bit addition (R101)
and the packing stages (R95 to R98); then the datapath against the contract (R99) and the equivalent circuits (R110). -/

namespace Sys2Proof.Machine

/-! ### Lanes of the bitwise operations -/

@[simp] theorem lane_and (a b : Operand) (L : Nat) : lane (a &&& b) L = lane a L &&& lane b L := BitVec.extractLsb'_and

theorem lane_mLetter {L : Nat} (hL : L < 8) : lane mLetter L = 0x40 := by
  revert L
  decide

theorem lane_mNib {L : Nat} (hL : L < 8) : lane mNib L = 0x0F := by
  revert L
  decide

/-- Every lane holds some character. -/
theorem exists_laneOf_eq (o : LaneOrder) {L : Nat} (hL : L < 8) : ∃ i : Fin 8, laneOf o i = L := by
  cases o
  · exact ⟨⟨L, hL⟩, rfl⟩
  · exact ⟨⟨7 - L, by omega⟩, by simp only [laneOf]; omega⟩

/-! ### The letter bits and the correction word -/

/-- What the correction word adds to a lane with code `c`: `0x09` for a letter bit, nothing without one (R92). -/
def correctionByte (c : Byte) : Byte := if c.getLsbD 6 = true then 0x09 else 0x00

theorem toNat_correctionByte (c : Byte) : (correctionByte c).toNat = correctionOf c := by
  rw [correctionByte, correctionOf]
  cases c.getLsbD 6 <;> rfl

theorem correctionOf_le (c : Byte) : correctionOf c ≤ 9 := by
  rw [correctionOf]
  cases c.getLsbD 6 <;> decide

/-- A code's bit 6, alone in its byte. -/
theorem and_letterBit (c : Byte) : c &&& 0x40 = if c.getLsbD 6 = true then 0x40 else 0x00 := by
  revert c
  decide

theorem lane_letterBits (din : Operand) {L : Nat} (hL : L < 8) :
    lane (letterBits din) L = if (lane din L).getLsbD 6 = true then 0x40 else 0x00 := by
  rw [letterBits, lane_and, lane_mLetter hL, and_letterBit]

/-- The letter bits are the bits of the word at places 6 modulo 8. -/
theorem getLsbD_letterBits (din : Operand) (j : Nat) :
    (letterBits din).getLsbD j = (din.getLsbD j && decide (j % 8 = 6)) := by
  rcases Nat.lt_or_ge j 64 with hj | hj
  · have hmask : ∀ j < 64, mLetter.getLsbD j = decide (j % 8 = 6) := by decide
    rw [letterBits, BitVec.getLsbD_and, hmask j hj]
  · simp [letterBits, BitVec.getLsbD_of_ge din j hj]

/-- Among the 14 bits from the foot of lane `L` only bit 6 can be a letter bit. -/
theorem getLsbD_letterBits_lane (din : Operand) (L : Nat) {n i : Nat} (hni : n + i < 14) :
    (letterBits din).getLsbD (n + (8 * L + i)) = (decide (n + i = 6) && din.getLsbD (8 * L + 6)) := by
  rw [getLsbD_letterBits]
  by_cases h : n + i = 6
  · have hplace : n + (8 * L + i) = 8 * L + 6 := by omega
    simp [h, hplace]
  · have hplace : ¬ (n + (8 * L + i)) % 8 = 6 := by omega
    simp [h, hplace]

/-- The two shifts bring bit 6 of a lane to its bits 0 and 3, and no bit into another lane (R92). -/
theorem lane_correctionWord (din : Operand) (L : Nat) :
    lane (correctionWord (letterBits din)) L = correctionByte (lane din L) := by
  have hletter : (lane din L).getLsbD 6 = din.getLsbD (8 * L + 6) := by rw [lane_getLsbD]; rfl
  apply BitVec.eq_of_getLsbD_eq
  intro i hi
  rw [correctionByte, hletter, lane_getLsbD, correctionWord, BitVec.getLsbD_or, BitVec.getLsbD_ushiftRight,
    BitVec.getLsbD_ushiftRight, getLsbD_letterBits_lane din L (by rw [sOne]; omega),
    getLsbD_letterBits_lane din L (by rw [sEight]; omega)]
  cases din.getLsbD (8 * L + 6) <;> interval_cases i <;> rfl

/-- The two shifted copies of the letter bits share no bit. -/
theorem letterBits_shifts_disjoint (din : Operand) :
    (letterBits din >>> sOne) &&& (letterBits din >>> sEight) = 0#64 := by
  apply BitVec.eq_of_getLsbD_eq
  intro j _
  have hplaces : ¬ (6 + j) % 8 = 6 ∨ ¬ (3 + j) % 8 = 6 := by omega
  rw [BitVec.getLsbD_and, BitVec.getLsbD_ushiftRight, BitVec.getLsbD_ushiftRight, getLsbD_letterBits, getLsbD_letterBits,
    sOne, sEight]
  rcases hplaces with h | h <;> simp [h]

/-- Shifting right by 3 is shifting right by 6 and back by 3, since no letter bit is below bit 6. -/
theorem letterBits_shiftRight_shiftLeft (din : Operand) :
    letterBits din >>> sOne <<< 3 = letterBits din >>> sEight := by
  apply BitVec.eq_of_getLsbD_eq
  intro j hj
  rw [BitVec.getLsbD_shiftLeft, BitVec.getLsbD_ushiftRight, BitVec.getLsbD_ushiftRight, sOne, sEight]
  by_cases hlow : j < 3
  · have hplace : ¬ (3 + j) % 8 = 6 := by omega
    simp [hlow, getLsbD_letterBits, hplace]
  · have hplace : 6 + (j - 3) = 3 + j := by omega
    simp [hlow, hj, hplace]

theorem correctionBySum_letterBits (din : Operand) :
    correctionBySum (letterBits din) = correctionWord (letterBits din) :=
  BitVec.add_eq_or_of_and_eq_zero _ _ (letterBits_shifts_disjoint din)

/-- Nine times a word is the word and eight times the word, a shift by 3. -/
theorem mul_nine (x : Operand) : x * 9#64 = x <<< 3 + x := by
  rw [BitVec.shiftLeft_eq_mul_twoPow]
  bv_omega

theorem correctionByProduct_letterBits (din : Operand) :
    correctionByProduct (letterBits din) = correctionWord (letterBits din) := by
  rw [correctionByProduct, mul_nine, letterBits_shiftRight_shiftLeft, BitVec.add_comm]
  exact correctionBySum_letterBits din

/-- Settles O30: the two words lane by lane, and the product and the sum by the letter bits' places. -/
theorem correctionIsNineInLetterLanes : Obligations.CorrectionIsNineInLetterLanes :=
  fun din => ⟨fun _ hL => ⟨lane_letterBits din hL, lane_correctionWord din _⟩,
    correctionByProduct_letterBits din, correctionBySum_letterBits din⟩

/-! ### The addition -/

theorem toNat_lane (v : Operand) (L : Nat) : (lane v L).toNat = v.toNat / 2 ^ (8 * L) % 256 := by
  rw [lane, BitVec.extractLsb'_toNat, Nat.shiftRight_eq_div_pow]

theorem laneCarryIn_succ (a b : Operand) (L : Nat) : laneCarryIn a b (L + 1) = laneSum a b L / 256 := rfl

theorem laneCarryIn_le_one (a b : Operand) (L : Nat) : laneCarryIn a b L ≤ 1 := by
  induction L with
  | zero => exact Nat.zero_le 1
  | succ L ih =>
    have ha := (lane a L).isLt
    have hb := (lane b L).isLt
    rw [laneCarryIn_succ, laneSum]
    omega

/-- The carry into lane `L` is what the lanes below `L` carry out of their `8 * L` bits. -/
theorem laneCarryIn_eq_div (a b : Operand) (L : Nat) :
    laneCarryIn a b L = (a.toNat % 2 ^ (8 * L) + b.toNat % 2 ^ (8 * L)) / 2 ^ (8 * L) := by
  induction L with
  | zero => simp [laneCarryIn, Nat.mod_one]
  | succ L ih =>
    have hpow : 2 ^ (8 * (L + 1)) = 2 ^ (8 * L) * 256 := by rw [Nat.mul_succ, pow_add]; rfl
    have hpos : 0 < 2 ^ (8 * L) := by positivity
    rw [laneCarryIn_succ, laneSum, ih, toNat_lane, toNat_lane, hpow, Nat.mod_mul, Nat.mod_mul, ← Nat.div_div_eq_div_mul,
      Nat.add_add_add_comm, ← Nat.mul_add, Nat.add_mul_div_left _ _ hpos, Nat.add_comm]

/-- A lane of the sum is the low 8 bits of the lane sum (R101). -/
theorem lane_add (a b : Operand) {L : Nat} (hL : L < 8) : lane (a + b) L = BitVec.ofNat 8 (laneSum a b L) := by
  apply BitVec.eq_of_toNat_eq
  rw [toNat_lane, BitVec.toNat_add, BitVec.toNat_ofNat, laneSum, laneCarryIn_eq_div, toNat_lane, toNat_lane]
  interval_cases L <;> omega

/-- Where no two lanes reach 256 together, no lane carries out. -/
theorem laneCarryIn_eq_zero {a b : Operand} (hsmall : ∀ L, L < 8 → (lane a L).toNat + (lane b L).toNat < 256) {L : Nat}
    (hL : L ≤ 8) : laneCarryIn a b L = 0 := by
  induction L with
  | zero => rfl
  | succ L ih =>
    rw [laneCarryIn_succ, laneSum, ih (by omega)]
    exact Nat.div_eq_of_lt (hsmall L hL)

/-- Where no lane carries out, the addition is lane by lane. -/
theorem lane_add_of_no_carry {a b : Operand} (hsmall : ∀ L, L < 8 → (lane a L).toNat + (lane b L).toNat < 256) {L : Nat}
    (hL : L < 8) : lane (a + b) L = lane a L + lane b L := by
  rw [lane_add a b hL, laneSum, laneCarryIn_eq_zero hsmall hL.le, Nat.add_zero, BitVec.ofNat_add, BitVec.ofNat_toNat,
    BitVec.ofNat_toNat, BitVec.setWidth_eq, BitVec.setWidth_eq]

/-! ### The corrected word -/

theorem toNat_lane_correctionWord (din : Operand) (L : Nat) :
    (lane (correctionWord (letterBits din)) L).toNat = correctionOf (lane din L) := by
  rw [lane_correctionWord, toNat_correctionByte]

/-- A lane of the datapath carries out only with a code of 0xF6 or above: the correction and the carry add at most 10. -/
theorem le_of_laneCarryIn_succ_eq_one {din : Operand} {L : Nat}
    (hcarry : laneCarryIn din (correctionWord (letterBits din)) (L + 1) = 1) : 0xF6 ≤ lane din L := by
  have hcorrection := correctionOf_le (lane din L)
  have hin := laneCarryIn_le_one din (correctionWord (letterBits din)) L
  rw [laneCarryIn_succ, laneSum, toNat_lane_correctionWord] at hcarry
  show 0xF6 ≤ (lane din L).toNat
  omega

/-- Settles O31: `lane_add`, the carries' definition and bound, and the bound on a lane that carries out. -/
theorem additionByLanes : Obligations.AdditionByLanes :=
  ⟨fun a b L hL => ⟨lane_add a b hL, laneCarryIn_succ a b L, laneCarryIn_le_one a b L⟩,
    fun _ _ _ hcarry => le_of_laneCarryIn_succ_eq_one hcarry⟩

/-- With every code below 0xF6 no lane of the datapath reaches 256. -/
theorem toNat_lane_add_correction_lt {din : Operand} (hlow : ∀ L, L < 8 → lane din L < 0xF6) (L : Nat) (hL : L < 8) :
    (lane din L).toNat + (lane (correctionWord (letterBits din)) L).toNat < 256 := by
  have hcode : (lane din L).toNat < 0xF6 := hlow L hL
  have hcorrection := correctionOf_le (lane din L)
  rw [toNat_lane_correctionWord]
  omega

/-- With every code below 0xF6 each lane is corrected by itself. -/
theorem lane_correctedWord {din : Operand} (hlow : ∀ L, L < 8 → lane din L < 0xF6) {L : Nat} (hL : L < 8) :
    lane (correctedWord din (correctionWord (letterBits din))) L = lane din L + correctionByte (lane din L) := by
  rw [correctedWord, lane_add_of_no_carry (toNat_lane_add_correction_lt hlow) hL, lane_correctionWord]

/-- The low nibble of a corrected code is `g` of the code (R109). -/
theorem lowNibble_add_correctionByte (c : Byte) : (c + correctionByte c).extractLsb' 0 4 = laneDigit c := by
  revert c
  decide

/-- The correction of a digit code stays in its low nibble (R93). -/
theorem highNibble_add_correctionByte {c : Byte} (hc : valid c = true) :
    (c + correctionByte c).extractLsb' 4 4 = c.extractLsb' 4 4 := by
  revert c
  decide

/-- Masking first, the corrected lane has the same low nibble (R110). -/
theorem lowNibble_mask_add_correctionByte (c : Byte) :
    ((c &&& 0x0F) + correctionByte c).extractLsb' 0 4 = laneDigit c := by
  revert c
  decide

/-! ### The packing stages -/

/-- The low nibble of the lane that holds character `i`: `n[i]` of R97 and R98. -/
def lowNibble (o : LaneOrder) (v : Operand) (i : Fin 8) : Nibble := (lane v (laneOf o i)).extractLsb' 0 4

/-- `n[i]` alone in the lane of character `i`: the content of `v2` (R97, R98). -/
def nibbleWord (o : LaneOrder) (n : Fin 8 → Nibble) : Operand := pack o (Chars.ofFn fun i => (n i).setWidth 8)

/-- The bytes `B[j] = {n[2j], n[2j+1]}`, each in the low half of 16 bits: the content of `w`. -/
def byteWord (o : LaneOrder) (n : Fin 8 → Nibble) : Operand :=
  match o with
  | .le => 0#8 ++ (n 6 ++ n 7) ++ 0#8 ++ (n 4 ++ n 5) ++ 0#8 ++ (n 2 ++ n 3) ++ 0#8 ++ (n 0 ++ n 1)
  | .be => 0#8 ++ (n 0 ++ n 1) ++ 0#8 ++ (n 2 ++ n 3) ++ 0#8 ++ (n 4 ++ n 5) ++ 0#8 ++ (n 6 ++ n 7)

/-- The half-words `H[m] = {B[2m], B[2m+1]}`, each in the low half of 32 bits: the content of `x`. -/
def halfWord (o : LaneOrder) (n : Fin 8 → Nibble) : Operand :=
  match o with
  | .le => 0#16 ++ (n 4 ++ n 5 ++ n 6 ++ n 7) ++ 0#16 ++ (n 0 ++ n 1 ++ n 2 ++ n 3)
  | .be => 0#16 ++ (n 0 ++ n 1 ++ n 2 ++ n 3) ++ 0#16 ++ (n 4 ++ n 5 ++ n 6 ++ n 7)

/-- The eight nibbles in order: the content of `r`. -/
def joined (n : Fin 8 → Nibble) : Result := joinNibbles (n 0) (n 1) (n 2) (n 3) (n 4) (n 5) (n 6) (n 7)

theorem nibble_joined (n : Fin 8 → Nibble) (i : Fin 8) : nibble (joined n) i = n i := nibble_joinNibbles n i

/-- A masked lane is its low nibble alone. -/
theorem and_lowNibble (c : Byte) : c &&& 0x0F = (c.extractLsb' 0 4).setWidth 8 := by
  revert c
  decide

theorem lane_nibbleLanes (v : Operand) {L : Nat} (hL : L < 8) :
    lane (nibbleLanes v) L = ((lane v L).extractLsb' 0 4).setWidth 8 := by
  rw [nibbleLanes, lane_and, lane_mNib hL, and_lowNibble]

/-- The mask of R94 leaves the low nibble of each lane, and nothing else. -/
theorem nibbleLanes_eq (o : LaneOrder) (v : Operand) : nibbleLanes v = nibbleWord o (lowNibble o v) := by
  rw [← pack_charsOf o (nibbleLanes v)]
  exact congrArg (fun f => pack o (Chars.ofFn f)) (funext fun i => lane_nibbleLanes v (laneOf_lt o i))

/-- Nibble pairs to bytes, bit by bit: each kept bit of the OR comes from one of its operands. -/
theorem packBytes_nibbleWord (o : LaneOrder) (n : Fin 8 → Nibble) : packBytes o (nibbleWord o n) = byteWord o n := by
  apply BitVec.eq_of_getLsbD_eq
  intro j hj
  cases o
  all_goals
    simp only [packBytes, nibbleWord, byteWord, pack_be_reverse, pack_le_append, Chars.ofFn, Chars.reverse, mByte,
      BitVec.getLsbD_and, BitVec.getLsbD_or, BitVec.getLsbD_shiftLeft, BitVec.getLsbD_ushiftRight, BitVec.getLsbD_append,
      BitVec.getLsbD_setWidth]
    interval_cases j <;> simp

/-- Byte pairs to half-words, bit by bit. -/
theorem packHalves_byteWord (o : LaneOrder) (n : Fin 8 → Nibble) : packHalves o (byteWord o n) = halfWord o n := by
  apply BitVec.eq_of_getLsbD_eq
  intro j hj
  cases o
  all_goals
    simp only [packHalves, byteWord, halfWord, mHalf, BitVec.getLsbD_and, BitVec.getLsbD_or, BitVec.getLsbD_shiftLeft,
      BitVec.getLsbD_ushiftRight, BitVec.getLsbD_append]
    interval_cases j <;> simp

/-- Half-words to the result, bit by bit. -/
theorem packResult_halfWord (o : LaneOrder) (n : Fin 8 → Nibble) :
    packResult o (halfWord o n) = (joined n).setWidth 64 := by
  apply BitVec.eq_of_getLsbD_eq
  intro j hj
  cases o
  all_goals
    simp only [packResult, halfWord, joined, joinNibbles, mWord, BitVec.getLsbD_and, BitVec.getLsbD_or,
      BitVec.getLsbD_shiftLeft, BitVec.getLsbD_ushiftRight, BitVec.getLsbD_append, BitVec.getLsbD_setWidth]
    interval_cases j <;> simp

/-- The last mask leaves nothing above bit 31, so the truncation of R104 loses nothing. -/
theorem extractLsb'_setWidth_result (v : Result) : (v.setWidth 64).extractLsb' 0 32 = v := by
  apply BitVec.eq_of_toNat_eq
  simpa using v.isLt

/-- From any corrected word the packing gives the low nibbles of its lanes, in the string's order. -/
theorem packing_eq (o : LaneOrder) (v : Operand) :
    (packResult o (packHalves o (packBytes o (nibbleLanes v)))).extractLsb' 0 32 = joined (lowNibble o v) := by
  rw [nibbleLanes_eq o, packBytes_nibbleWord, packHalves_byteWord, packResult_halfWord, extractLsb'_setWidth_result]

theorem dp_eq (o : LaneOrder) (din : Operand) : dp o din = joined (lowNibble o (nets o din).v1) :=
  packing_eq o _

/-- Settles O33: the nibbles named are the low nibbles of `v1`, and each stage is one of the lemmas above. -/
theorem packingStagesPlaceTheNibbles : Obligations.PackingStagesPlaceTheNibbles := by
  intro o din n hn
  obtain rfl : n = lowNibble o (nets o din).v1 := funext hn
  have hw : (nets o din).w = byteWord o (lowNibble o (nets o din).v1) :=
    (congrArg (packBytes o) (nibbleLanes_eq o _)).trans (packBytes_nibbleWord o _)
  have hx : (nets o din).x = halfWord o (lowNibble o (nets o din).v1) :=
    (congrArg (packHalves o) hw).trans (packHalves_byteWord o _)
  have hr : (nets o din).r = (joined (lowNibble o (nets o din).v1)).setWidth 64 :=
    (congrArg (packResult o) hx).trans (packResult_halfWord o _)
  refine ⟨fun i => lane_nibbleLanes _ (laneOf_lt o i), ?_, ?_, hr, dp_eq o din⟩
  · cases o <;> exact hw
  · cases o <;> exact hx

/-! ### What the datapath gives -/

/-- The carries of R109, from the codes alone, are those of the addition. -/
theorem codeCarryIn_eq (din : Operand) (L : Nat) :
    codeCarryIn din L = laneCarryIn din (correctionWord (letterBits din)) L := by
  induction L with
  | zero => rfl
  | succ L ih =>
    have hcode := (lane din L).isLt
    have hcorrection := correctionOf_le (lane din L)
    have hin := laneCarryIn_le_one din (correctionWord (letterBits din)) L
    rw [codeCarryIn, ih, laneCarryIn_succ, laneSum, toNat_lane_correctionWord]
    split <;> omega

theorem codeSum_eq (din : Operand) (L : Nat) :
    codeSum din L = laneSum din (correctionWord (letterBits din)) L := by
  rw [codeSum, laneSum, codeCarryIn_eq, toNat_lane_correctionWord]

theorem extractLsb'_ofNat_byte (x : Nat) : (BitVec.ofNat 8 x).extractLsb' 0 4 = BitVec.ofNat 4 x := by
  apply BitVec.eq_of_toNat_eq
  rw [BitVec.extractLsb'_toNat, BitVec.toNat_ofNat, BitVec.toNat_ofNat, Nat.shiftRight_zero]
  exact Nat.mod_mod_of_dvd x (by decide)

/-- Nibble `i` of the datapath's result is the low nibble of the lane sum of character `i` (R109). -/
theorem lowNibble_v1 (o : LaneOrder) (din : Operand) (i : Fin 8) :
    lowNibble o (nets o din).v1 i = BitVec.ofNat 4 (codeSum din (laneOf o i)) := by
  rw [codeSum_eq, ← extractLsb'_ofNat_byte, ← lane_add din _ (laneOf_lt o i)]
  rfl

theorem dpByLanes_eq (o : LaneOrder) (din : Operand) :
    dpByLanes o din = joined fun i => BitVec.ofNat 4 (codeSum din (laneOf o i)) := rfl

theorem dp_eq_dpByLanes (o : LaneOrder) (din : Operand) : dp o din = dpByLanes o din := by
  rw [dp_eq, dpByLanes_eq, funext (lowNibble_v1 o din)]

/-- With no code of 0xF6 or above, nibble `i` of the datapath's result is `g` of character `i` (R109). -/
theorem nibble_dp {o : LaneOrder} {din : Operand} (hlow : ∀ L, L < 8 → lane din L < 0xF6) (i : Fin 8) :
    nibble (dp o din) i = laneDigit ((charsOf o din).get i) := by
  rw [dp_eq, nibble_joined, charsOf_get, ← lowNibble_add_correctionByte, ← lane_correctedWord hlow (laneOf_lt o i)]
  rfl

/-- Settles O29: the nibbles of the result as lane sums, and as `g` where nothing carries. -/
theorem datapathOutOfContract : Obligations.DatapathOutOfContract :=
  ⟨dp_eq_dpByLanes, fun _ _ hlow => nibble_dp hlow⟩

/-! ### In contract -/

/-- Every lane of an in-contract word holds a digit code. -/
theorem valid_lane {o : LaneOrder} {din : Operand} (hdin : InContract o din) {L : Nat} (hL : L < 8) :
    valid (lane din L) = true := by
  obtain ⟨i, rfl⟩ := exists_laneOf_eq o hL
  rw [← charsOf_get]
  exact (validChars_iff _).mp hdin i

theorem lt_of_valid {c : Byte} (hc : valid c = true) : c < 0xF6 := by
  revert c
  decide

theorem lane_lt {o : LaneOrder} {din : Operand} (hdin : InContract o din) (L : Nat) (hL : L < 8) : lane din L < 0xF6 :=
  lt_of_valid (valid_lane hdin hL)

/-- Settles O32: no lane of digit codes carries out, so each is corrected by itself, within its low nibble. -/
theorem correctionStaysInItsLane : Obligations.CorrectionStaysInItsLane := by
  intro o din hdin L hL
  have hlane : lane (nets o din).v1 L = lane din L + correctionByte (lane din L) := lane_correctedWord (lane_lt hdin) hL
  have hlow : (lane (nets o din).v1 L).extractLsb' 0 4 = digitValue (lane din L) := by
    rw [hlane, lowNibble_add_correctionByte, digitValue_eq_laneDigit]
  refine ⟨laneCarryIn_eq_zero (toNat_lane_add_correction_lt (lane_lt hdin)) hL, ?_, hlow, ?_⟩
  · rw [hlane, highNibble_add_correctionByte (valid_lane hdin hL)]
  · rw [← hlow]
    exact lane_nibbleLanes _ hL

/-- On an in-contract word the datapath gives the numeral of its characters (R99). -/
theorem dp_of_inContract {o : LaneOrder} {din : Operand} (hdin : InContract o din) :
    dp o din = numeral (charsOf o din) :=
  (numeral_eq_of_nibbles fun i => by rw [nibble_dp (lane_lt hdin), digitValue_eq_laneDigit]).symm

/-- The datapath refines the contract of every instance of its lane order (R99). -/
theorem dp_eq_decodeOp (p : Params) {din : Operand} (hdin : InContract p.laneOrder din) :
    dp p.laneOrder din = decodeOp p din :=
  (dp_of_inContract hdin).trans (decodeOp_of_valid p din hdin).symm

/-- Settles O28: `dp_eq_decodeOp` in contract; out of contract the reference instance is built to drive the datapath. -/
theorem datapathMeetsTheContract : Obligations.DatapathMeetsTheContract := by
  refine ⟨fun p _ hdin => dp_eq_decodeOp p hdin, fun o din => ?_⟩
  by_cases hdin : InContract o din
  · exact (dp_eq_decodeOp (referenceInstance o) hdin).symm
  · exact decodeOp_of_invalid (referenceInstance o) din (Bool.eq_false_of_not_eq_true hdin)

/-- `val` reads bits 6 and 3..0 of a code only. -/
theorem digitValue_and_mask (c : Byte) : digitValue (c &&& 0x4F) = digitValue c := by
  revert c
  decide

theorem lane_caseMask {L : Nat} (hL : L < 8) : lane 0x4F4F4F4F4F4F4F4F L = 0x4F := by
  revert L
  decide

/-- Settles O34: words that agree under the mask have characters of the same values. -/
theorem caseBitsAreIgnored : Obligations.CaseBitsAreIgnored := by
  intro o din din' hdin hdin' hmask
  rw [dp_of_inContract hdin, dp_of_inContract hdin']
  refine numeral_congr fun i => ?_
  have hlane := congrArg (lane · (laneOf o i)) hmask
  simp only [lane_and, lane_caseMask (laneOf_lt o i)] at hlane
  rw [charsOf_get, charsOf_get, ← digitValue_and_mask, hlane, digitValue_and_mask]

/-! ### Equivalent circuits -/

theorem nibble_perLaneConverters (o : LaneOrder) (din : Operand) (i : Fin 8) :
    nibble (perLaneConverters o din) i = laneDigit ((charsOf o din).get i) :=
  nibble_joinNibbles (fun j => laneDigit ((charsOf o din).get j)) i

/-- A masked lane and its correction stay below 256. -/
theorem toNat_lane_mask_add_correction_lt (din : Operand) (L : Nat) (hL : L < 8) :
    (lane (din &&& mNib) L).toNat + (lane (correctionWord (letterBits din)) L).toNat < 256 := by
  have hnibble : (lane din L &&& 0x0F).toNat ≤ 0x0F := Nat.and_le_right
  have hcorrection := correctionOf_le (lane din L)
  rw [toNat_lane_correctionWord, lane_and, lane_mNib hL]
  omega

theorem nibble_maskFirst (o : LaneOrder) (din : Operand) (i : Fin 8) :
    nibble (maskFirst o din) i = laneDigit ((charsOf o din).get i) := by
  have hL := laneOf_lt o i
  have hlane := lane_add_of_no_carry (toNat_lane_mask_add_correction_lt din) hL
  rw [lane_and, lane_mNib hL, lane_correctionWord] at hlane
  rw [maskFirst, packing_eq, nibble_joined, charsOf_get, lowNibble, hlane, lowNibble_mask_add_correctionByte]

theorem perLaneConverters_eq_dp {o : LaneOrder} {din : Operand} (hlow : ∀ L, L < 8 → lane din L < 0xF6) :
    perLaneConverters o din = dp o din :=
  eq_of_nibbles _ _ fun i => (nibble_perLaneConverters o din i).trans (nibble_dp hlow i).symm

theorem maskFirst_eq_perLaneConverters (o : LaneOrder) (din : Operand) : maskFirst o din = perLaneConverters o din :=
  eq_of_nibbles _ _ fun i => (nibble_maskFirst o din i).trans (nibble_perLaneConverters o din i).symm

/-- Settles O35: the three circuits nibble by nibble; in contract no code is 0xF6 or above and the datapath meets the
contract. -/
theorem equivalentCircuits : Obligations.EquivalentCircuits := by
  refine ⟨fun _ _ hlow => perLaneConverters_eq_dp hlow, maskFirst_eq_perLaneConverters, fun p din hdin => ?_⟩
  have hconverters : perLaneConverters p.laneOrder din = decodeOp p din :=
    (perLaneConverters_eq_dp (lane_lt hdin)).trans (dp_eq_decodeOp p hdin)
  exact ⟨hconverters, (maskFirst_eq_perLaneConverters _ din).trans hconverters⟩

/-! ### The list of gates and the worked trace -/

theorem runGates_append (ns : List Operand) (gs hs : List Gate) :
    runGates ns (gs ++ hs) = runGates (runGates ns gs) hs := by
  induction gs generalizing ns with
  | nil => rfl
  | cons g gs ih => exact ih _

/-- Lines 1 to 6 of program P6 drive the datapath's nets up to `v2`, in order. -/
theorem runGates_conversion (o : LaneOrder) (din : Operand) :
    runGates [din] conversionGates =
      [din, (nets o din).b, (nets o din).b >>> sOne, (nets o din).b >>> sEight, (nets o din).k, (nets o din).v1,
        (nets o din).v2] := rfl

/-- The other lines pack net 6, whatever the nets before it are. -/
theorem runGates_packing (o : LaneOrder) (n0 n1 n2 n3 n4 n5 n6 : Operand) :
    (runGates [n0, n1, n2, n3, n4, n5, n6] (packingGates o)).getLastD 0#64 =
      packResult o (packHalves o (packBytes o n6)) := by
  cases o <;> rfl

theorem circuitOut_eq_dp (o : LaneOrder) (din : Operand) : circuitOut o din = dp o din := by
  rw [circuitOut, circuit, runGates_append, runGates_conversion o, runGates_packing]
  rfl

/-- Settles O36: `circuitOut_eq_dp`; the gates and the distances are counted on the two lists. -/
theorem gatesComputeTheDatapath : Obligations.GatesComputeTheDatapath :=
  ⟨circuitOut_eq_dp, by decide, by decide, by decide, by decide⟩

/-- Settles O37: every net by evaluation. -/
theorem traceOfDeadbeef : Obligations.TraceOfDeadbeef := by
  constructor <;> decide

end Sys2Proof.Machine
